-- ==== Sys2Proof/Word.lean ====
section
/-! DEFINITION. The machine's words: the widths of 00_scope.md rules R7 and R9, all unsigned (R11), bit 0 the least significant (R10). -/

namespace Sys2Proof

/-- One bit that the spec computes with (a parity bit, the `mb` field). -/
abbrev Bit := BitVec 1

/-- One byte of a frame (R9: 8 bits a transfer). -/
abbrev Byte := BitVec 8

/-- The packed word and the 32-bit ports (R9, R21). -/
abbrev Word32 := BitVec 32

/-- The command word (R70). -/
abbrev CmdWord := BitVec 8

/-- The clock divisor, `P_DIV_WIDTH = 16` bits (R7, R26). -/
abbrev Divisor := BitVec 16

/-- The phase counter, `P_DIV_WIDTH + 1` bits (R39). -/
abbrev Phase := BitVec 17

/-- The label operand (R9). -/
abbrev Label := BitVec 8

/-- The SDI operand (R9). -/
abbrev Sdi := BitVec 2

/-- The data operand (R9). -/
abbrev Data := BitVec 19

/-- The SSM operand (R9). -/
abbrev Ssm := BitVec 2

end Sys2Proof
end

