-- ==== Sys2Proof/Config.lean ====
section
/-! DEFINITION. What an implementation fixes (00_scope.md rules R5 to R8) and the values the spec leaves free. -/

namespace Sys2Proof

/-- `P_LAYOUT` (R5): the field layout of the packed word. -/
inductive Layout where
  | full            -- R83, the default
  | sourceLiteral   -- R84
  deriving DecidableEq, Repr

/-- `P_PARITY_MASK` (R6): which bits feed the parity generator. No other value is admitted. -/
inductive ParityMask where
  | exceptParity    -- 0xFFFFFFFE, the default
  | exceptTop       -- 0x7FFFFFFF
  deriving DecidableEq, Repr

/-- The mask's 32 bits (R6). -/
def ParityMask.bits : ParityMask → Word32
  | .exceptParity => 0xFFFFFFFE#32
  | .exceptTop => 0x7FFFFFFF#32

/-- The parameters that change behaviour (R2): fixed for a machine, never written by a step (log 2). -/
structure Params where
  layout : Layout
  parityMask : ParityMask
  deriving DecidableEq, Repr

/-- The values R5 and R6 call the default. -/
def Params.default : Params := { layout := .full, parityMask := .exceptParity }

/-- `P_SDO_IDLE` (R8), OPEN: the level of `sdo` while no byte shifts. No value of it can be proved (log 1). -/
opaque Config.sdoIdle : Bool

/-- The free byte that `TXBUF[IDX]` is for an `IDX` above 3, which no run from reset reaches (I19, R32; log 8). -/
opaque Config.txbufBeyond : Nat → Byte

/-- The free value of `TXC` where the command unit and the shifter both write it, which R198 excludes in every reachable state (log 9). -/
opaque Config.txcDoubleWrite : Nat → Bool

/-- The free draws of the power-on state (R44, R243; log 7): register number to value. -/
opaque Config.powerOnDraw : Nat → Nat

end Sys2Proof
end

