-- ==== Sys2Proof/Machine/Flags.lean ====
section
/-! DEFINITION. The parity computation (40_encoder.md rules R104 to R109), the one flag-like bit the spec computes. -/

namespace Sys2Proof.Machine

/-- The parity policy, a tagged choice (R73). -/
inductive Policy where
  | manual (b : Bit)
  | oddAuto
  | evenAuto
  deriving DecidableEq, Repr

/-- The successive halving folds of R104, whose bit 0 is the XOR of all 32 bits. -/
def xorFold32 (v : Word32) : Bit :=
  let t16 := v ^^^ (v >>> 16)
  let t8 := t16 ^^^ (t16 >>> 8)
  let t4 := t8 ^^^ (t8 >>> 4)
  let t2 := t4 ^^^ (t4 >>> 2)
  let t1 := t2 ^^^ (t2 >>> 1)
  t1.extractLsb' 0 1

/-- The number of 1 bits among bits `n - 1` down to 0 of a value. -/
def onesBelow {w : Nat} (v : BitVec w) : Nat → Nat
  | 0 => 0
  | n + 1 => onesBelow v n + (v.getLsbD n).toNat

/-- `popcount` (R11): the number of 1 bits. -/
def popcount {w : Nat} (v : BitVec w) : Nat := onesBelow v w

/-- `P_IN`, the bits that feed the parity generator (R105). -/
def parityInput (m : ParityMask) (u : Word32) : Word32 := u &&& m.bits

/-- The parity bit p of a policy (R106, R107, R108). -/
def parityBit (m : ParityMask) (pol : Policy) (u : Word32) : Bit :=
  match pol with
  | .manual b => b
  | .oddAuto => 1#1 - xorFold32 (parityInput m u)
  | .evenAuto => xorFold32 (parityInput m u)

/-- Parity insertion at bit 0 (R109). -/
def insertParity (u : Word32) (p : Bit) : Word32 := u ||| p.setWidth 32

end Sys2Proof.Machine
end

