-- ==== Sys2Proof/Machine/State.lean ====
section
/-! DEFINITION. The machine's state: every register of 10_state.md rule R23, the input ports of R21, the host program of R81, the
parameters of 00_scope.md rule R2. Output ports are functions of it (Machine/Outputs.lean). -/

namespace Sys2Proof.Machine

/-- Why the machine would stop with a fault. No rule of the spec stops the block: a faulting command writes FAULT and the block goes on
stepping (R210, R218), and no port value or register value is outside the rules. So there is no constructor, nobody raises one, and that is
safe: no run is cut short. -/
inductive Fault where
  deriving DecidableEq, Repr

/-- Why an instruction would have no meaning. -/
inductive Refusal where
  /-- Raised only by an arm of `exec` whose instruction has no meaning yet. Safe: a refused run proves nothing. No arm raises it. -/
  | notModelled (mnemonic : String)
  deriving DecidableEq, Repr

/-- The frame sequencer's state `SEQ` (R31). -/
inductive Seq where
  | idle
  | load
  | waitc
  deriving DecidableEq, Repr

/-- A transmission buffer: four bytes, `b0` sent first (R9, R30, R85). -/
structure Frame where
  b0 : Byte
  b1 : Byte
  b2 : Byte
  b3 : Byte
  deriving DecidableEq, Repr

/-- The operand input ports (R21). -/
structure Operands where
  inLabel : Label
  inSdi : Sdi
  inData : Data
  inSsm : Ssm
  inDiv : Divisor
  inTx : Word32
  deriving DecidableEq, Repr

/-- Every input port but the clock, whose rising edge is the step (R21). -/
structure Ports where
  rst : Bool
  cmdValid : Bool
  cmd : CmdWord
  ops : Operands
  deriving DecidableEq, Repr

/-- One line of a host program, assembled (R81). -/
inductive HostLine where
  /-- A command, presented with its operands until it is accepted. -/
  | present (cmd : CmdWord) (ops : Operands)
  /-- `WAIT n`: no command for n edges. -/
  | wait (n : Nat)
  /-- `RESET`: `rst = 1` for one edge. -/
  | reset
  /-- Any values on the ports for one edge. R81 has no such line: it lets a program be any host of R199 (log 5). -/
  | drive (p : Ports)
  deriving DecidableEq, Repr

/-- What the host is doing at the next edge (R81: when a line finishes). -/
inductive HostPhase where
  /-- No line left: the ports keep their values. -/
  | done
  /-- Presenting a command until it is accepted. -/
  | hold
  /-- An XMIT started a frame: waiting for `busy` to fall. -/
  | frame
  /-- A line that ends after this many more edges. -/
  | edges (n : Nat)
  deriving DecidableEq, Repr

/-- The whole machine: the block's registers (R23), then the host side of its ports, then the parameters. -/
structure State where
  /-- `DIV` (R26). -/
  div : Divisor
  /-- `INITD` (R27). -/
  initd : Bool
  /-- `WORD` (R28). -/
  word : Word32
  /-- `WVALID` (R29). -/
  wvalid : Bool
  /-- `TXBUF[0..3]` (R30). -/
  txbuf : Frame
  /-- `SEQ` (R31). -/
  seq : Seq
  /-- `IDX` (R32). -/
  idx : BitVec 3
  /-- `TDR` (R34). -/
  tdr : Byte
  /-- `DRE` (R33). -/
  dre : Bool
  /-- `TSR` (R35). -/
  tsr : Byte
  /-- `ACT` (R36). -/
  act : Bool
  /-- `BITN` (R37). -/
  bitn : BitVec 3
  /-- `PH` (R39). -/
  ph : Phase
  /-- `TXC` (R38). -/
  txc : Bool
  /-- `FAULT` (R40). -/
  fault : BitVec 3
  /-- The input ports as the host drives them at the next edge (R21). -/
  ports : Ports
  /-- What the host is doing at the next edge (R81; log 5). -/
  phase : HostPhase
  /-- The host program's lines not yet started, first line first (R81; log 5). -/
  program : List HostLine
  /-- `P_LAYOUT` and `P_PARITY_MASK` (R5, R6; log 2). -/
  params : Params
  /-- The model's own: how many free values were drawn (logs 8, 9, 10). -/
  draws : Nat
  deriving DecidableEq, Repr

/-- Operand ports all 0. -/
def Operands.zero : Operands := { inLabel := 0, inSdi := 0, inData := 0, inSsm := 0, inDiv := 0, inTx := 0 }

/-- The ports of a host that presents nothing (log 6). -/
def Ports.idle : Ports := { rst := false, cmdValid := false, cmd := 0, ops := Operands.zero }

/-- The machine right after reset: every register at R240's value, an idle host (log 6), the default parameters (R5, R6). -/
def State.reset : State :=
  { div := 0, initd := false, word := 0x00000000#32, wvalid := false, txbuf := ⟨0x00#8, 0x00#8, 0x00#8, 0x00#8⟩,
    seq := .idle, idx := 0, tdr := 0x00#8, dre := true, tsr := 0x00#8, act := false, bitn := 0, ph := 0, txc := false, fault := 0,
    ports := Ports.idle, phase := .done, program := [], params := Params.default, draws := 0 }

/-- `SEQ` from a free draw. -/
def Seq.ofDraw (n : Nat) : Seq := if n % 3 = 0 then .idle else if n % 3 = 1 then .load else .waitc

/-- The machine before its first reset edge: every register is a free draw (R44, R243; log 7). -/
def State.powerOn : State :=
  { State.reset with
    div := BitVec.ofNat 16 (Config.powerOnDraw 0), initd := Config.powerOnDraw 1 % 2 = 1,
    word := BitVec.ofNat 32 (Config.powerOnDraw 2), wvalid := Config.powerOnDraw 3 % 2 = 1,
    txbuf := ⟨BitVec.ofNat 8 (Config.powerOnDraw 4), BitVec.ofNat 8 (Config.powerOnDraw 5),
      BitVec.ofNat 8 (Config.powerOnDraw 6), BitVec.ofNat 8 (Config.powerOnDraw 7)⟩,
    seq := Seq.ofDraw (Config.powerOnDraw 8), idx := BitVec.ofNat 3 (Config.powerOnDraw 9),
    tdr := BitVec.ofNat 8 (Config.powerOnDraw 10), dre := Config.powerOnDraw 11 % 2 = 1,
    tsr := BitVec.ofNat 8 (Config.powerOnDraw 12), act := Config.powerOnDraw 13 % 2 = 1,
    bitn := BitVec.ofNat 3 (Config.powerOnDraw 14), ph := BitVec.ofNat 17 (Config.powerOnDraw 15),
    txc := Config.powerOnDraw 16 % 2 = 1, fault := BitVec.ofNat 3 (Config.powerOnDraw 17) }

end Sys2Proof.Machine
end

