-- ==== Sys2Proof/Machine/Operands.lean ====
section
/-! DEFINITION. Operand forms: how a host value reaches a port (30_encoding.md rule R79), the byte order of the 32-bit ports
(20_memory.md rule R56), and the reversal both the label and the buffer use (40_encoder.md rule R101). -/

namespace Sys2Proof.Machine

/-- Bit `i` of a byte moved to bit `7 - i`, every other bit 0. -/
def mirrorBit (b : Byte) (i : Nat) : Byte := (b.extractLsb' i 1).setWidth 8 <<< (7 - i)

/-- `rev8` (R101): bit i of the result is bit 7 - i of the operand. -/
def rev8 (b : Byte) : Byte :=
  mirrorBit b 0 ||| mirrorBit b 1 ||| mirrorBit b 2 ||| mirrorBit b 3 |||
    mirrorBit b 4 ||| mirrorBit b 5 ||| mirrorBit b 6 ||| mirrorBit b 7

/-- The four frame bytes on a 32-bit port: byte j is bits `[31-8j : 24-8j]` (R56). -/
def Frame.ofWord (v : Word32) : Frame :=
  ⟨v.extractLsb' 24 8, v.extractLsb' 16 8, v.extractLsb' 8 8, v.extractLsb' 0 8⟩

/-- Four frame bytes as a 32-bit port shows them, `{B0, B1, B2, B3}` (R22, R56). -/
def Frame.toWord (f : Frame) : Word32 :=
  (f.b0.setWidth 32 <<< 24) ||| (f.b1.setWidth 32 <<< 16) ||| (f.b2.setWidth 32 <<< 8) ||| f.b3.setWidth 32

/-- Byte `i` of a frame, for the four that exist. -/
def Frame.byteAt (f : Frame) : Nat → Option Byte
  | 0 => some f.b0
  | 1 => some f.b1
  | 2 => some f.b2
  | 3 => some f.b3
  | _ => none

/-- A byte's bits in the order the shifter sends them, bit 7 first (R57). -/
def byteBits (b : Byte) : List Bool :=
  [b.getLsbD 7, b.getLsbD 6, b.getLsbD 5, b.getLsbD 4, b.getLsbD 3, b.getLsbD 2, b.getLsbD 1, b.getLsbD 0]

/-- A frame's 32 bits in wire order: wire bit n is bit 7 - (n mod 8) of byte n div 8 (R57, R159). -/
def frameBits (f : Frame) : List Bool := byteBits f.b0 ++ byteBits f.b1 ++ byteBits f.b2 ++ byteBits f.b3

/-- Host values on the ENC operand ports, each cut to its port's width by keeping the low bits (R79); the other ports 0. -/
def Operands.forEnc (label sdi data ssm : Nat) : Operands :=
  { Operands.zero with
    inLabel := BitVec.ofNat 8 label, inSdi := BitVec.ofNat 2 sdi, inData := BitVec.ofNat 19 data, inSsm := BitVec.ofNat 2 ssm }

/-- A host value on `in_div`, cut to its width (R79); the other ports 0. -/
def Operands.forInit (div : Nat) : Operands := { Operands.zero with inDiv := BitVec.ofNat 16 div }

/-- A host value on `in_tx`, cut to its width (R79); the other ports 0. -/
def Operands.forXmitP (bytes : Nat) : Operands := { Operands.zero with inTx := BitVec.ofNat 32 bytes }

end Sys2Proof.Machine
end

