-- ==== Sys2Proof/Machine/Encoder.lean ====
section
/-! DEFINITION. The word encoder's functions (40_encoder.md rules R100 to R111) and the inverse the laws use (R115). -/

namespace Sys2Proof.Machine

/-- `pack` under `P_LAYOUT = FULL` (R83, R103). -/
def packFull (label : Label) (sdi : Sdi) (data : Data) (ssm : Ssm) : Word32 :=
  ((rev8 label).setWidth 32 <<< 24) ||| (sdi.setWidth 32 <<< 22) ||| (data.setWidth 32 <<< 3) ||| (ssm.setWidth 32 <<< 1)

/-- `pack` under `P_LAYOUT = SOURCE_LITERAL` (R84, R103): `ssm[1]` is dropped and bit 21 is 0. -/
def packLiteral (label : Label) (sdi : Sdi) (data : Data) (ssm : Ssm) : Word32 :=
  ((rev8 label).setWidth 32 <<< 24) ||| (sdi.setWidth 32 <<< 22) ||| (data.setWidth 32 <<< 2) |||
    ((ssm.extractLsb' 0 1).setWidth 32 <<< 1)

/-- `pack` (R103): the unparitied word U. -/
def pack (layout : Layout) (label : Label) (sdi : Sdi) (data : Data) (ssm : Ssm) : Word32 :=
  match layout with
  | .full => packFull label sdi data ssm
  | .sourceLiteral => packLiteral label sdi data ssm

/-- `encode` (R111): the packed word W. Total: it has a result for every input. -/
def encodeWord (p : Params) (label : Label) (sdi : Sdi) (data : Data) (ssm : Ssm) (pol : Policy) : Word32 :=
  let u := pack p.layout label sdi data ssm
  insertParity u (parityBit p.parityMask pol u)

/-- `serialize` (R85, R110): byte 0 as it is, bytes 1 to 3 bit-reversed. -/
def serialize (w : Word32) : Frame :=
  ⟨w.extractLsb' 24 8, rev8 (w.extractLsb' 16 8), rev8 (w.extractLsb' 8 8), rev8 (w.extractLsb' 0 8)⟩

/-- The word a buffer came from (R115): bytes 1 to 3 reversed back. -/
def deserialize (f : Frame) : Word32 := Frame.toWord ⟨f.b0, rev8 f.b1, rev8 f.b2, rev8 f.b3⟩

/-- The fields of a packed word under FULL, as R115's `decode` extracts them. -/
structure WordFields where
  label : Label
  sdi : Sdi
  data : Data
  ssm : Ssm
  parity : Bit
  deriving DecidableEq, Repr

/-- `decode` of R115, a law for tests; no command performs it. -/
def decodeBuffer (f : Frame) : WordFields :=
  let w := deserialize f
  { label := rev8 (w.extractLsb' 24 8), sdi := w.extractLsb' 22 2, data := w.extractLsb' 3 19, ssm := w.extractLsb' 1 2,
    parity := w.extractLsb' 0 1 }

end Sys2Proof.Machine
end

