-- ==== Sys2Proof/Machine/Ops.lean ====
section
/-! DEFINITION. The named operations over the registers that the commands and the three processes share. The block has no memory
(20_memory.md rule R50), so no operation reads or writes any. -/

namespace Sys2Proof.Machine

/-- `busy` (R22, R31). -/
def State.busy (s : State) : Bool := decide (s.seq ≠ .idle)

/-- `cmd_ready` (R191). -/
def State.cmdReady (s : State) : Bool := decide (s.seq = .idle) && decide (s.fault = 0)

/-- Is a command accepted at this edge (R190)? -/
def State.accepted (s : State) : Bool := !s.ports.rst && s.ports.cmdValid && s.cmdReady

/-- The fault codes a command can raise (R211). -/
inductive FaultCode where
  | illegal   -- E_ILLEGAL (R212)
  | reinit    -- E_REINIT (R213)
  | noinit    -- E_NOINIT (R214)
  | noword    -- E_NOWORD (R215)
  deriving DecidableEq, Repr

/-- A fault's code in the register `FAULT` (R211). -/
def FaultCode.code : FaultCode → BitVec 3
  | .illegal => 1#3
  | .reinit => 2#3
  | .noinit => 3#3
  | .noword => 4#3

/-- `raise Fault(code)` (R210): the code is written and nothing else. The block saves no state, changes no mode and jumps nowhere (R217). -/
def State.raise (s : State) (c : FaultCode) : State := { s with fault := c.code }

/-- A reset edge (R240): every register takes its reset value. It is the only return from a fault (R219). The ports, the host and the
parameters are not registers of the block. -/
def State.resetEdge (s : State) : State :=
  { State.reset with ports := s.ports, phase := s.phase, program := s.program, params := s.params, draws := s.draws }

/-- The word the ENC commands write: `encode` of the operand ports (R78, R111). -/
def State.encodedOperands (s : State) (pol : Policy) : Word32 :=
  encodeWord s.params s.ports.ops.inLabel s.ports.ops.inSdi s.ports.ops.inData s.ports.ops.inSsm pol

/-- An ENC command's writes (R112 to R114). -/
def State.writeWord (s : State) (w : Word32) : State := { s with word := w, wvalid := true }

/-- INIT's writes (R155). -/
def State.configure (s : State) (d : Divisor) : State := { s with div := d, initd := true }

/-- An accepted XMIT's writes (R156, R157). -/
def State.startFrame (s : State) (f : Frame) : State := { s with txbuf := f, idx := 0, txc := false, seq := .load }

/-- `H = DIV + 1` (R141) at the phase counter's width, where it does not overflow. -/
def State.half (s : State) : Phase := s.div.setWidth 17 + 1#17

/-- `2*H - 1`, the last phase of a bit period (R146), at the phase counter's width. -/
def State.lastPhase (s : State) : Phase := 2#17 * s.half - 1#17

/-- The ports driven to given values. -/
def State.drivenBy (s : State) (p : Ports) : State := { s with ports := p }

/-- The state in which the next edge accepts the command word `w`, with the operand ports as they are: the host presents it and holds it
(R81), and the block is ready for it (R191: `SEQ = IDLE` and `FAULT = 0`). -/
def State.presenting (s : State) (w : CmdWord) : State :=
  { s with ports := { rst := false, cmdValid := true, cmd := w, ops := s.ports.ops }, phase := .hold, seq := .idle, fault := 0 }

end Sys2Proof.Machine
end

