-- ==== Sys2Proof/Machine/Driver.lean ====
section
/-! DEFINITION. The host of 30_encoding.md rule R81: how a host program drives the input ports, line by line (log 5). -/

namespace Sys2Proof.Machine

/-- What starting the next line drives at the next edge, what the host then does, and the lines left. `WAIT 0` covers no edge (log 13). -/
def startLine : List HostLine → Ports × HostPhase × List HostLine
  | [] => (Ports.idle, .done, [])
  | .present w ops :: rest => ({ rst := false, cmdValid := true, cmd := w, ops := ops }, .hold, rest)
  | .wait 0 :: rest => startLine rest
  | .wait (n + 1) :: rest => (Ports.idle, .edges (n + 1), rest)
  | .reset :: rest => ({ Ports.idle with rst := true }, .edges 1, rest)
  | .drive p :: rest => (p, .edges 1, rest)

/-- The host starts the next line of its program. -/
def State.startNextLine (s : State) : State :=
  let next := startLine s.program
  { s with ports := next.1, phase := next.2.1, program := next.2.2 }

/-- The host after an edge from `pre` to `post`: a command line finishes when it is accepted, or, if it started a frame, when `busy` falls;
`WAIT n` at the n-th edge it covers; `RESET` at its edge (R81). A command not accepted stays presented (R196). -/
def driver (pre post : State) : State :=
  match pre.phase with
  | .done => post
  | .hold =>
    if pre.accepted then
      if post.busy then { post with ports := Ports.idle, phase := .frame } else post.startNextLine
    else post
  | .frame => if post.busy then post else post.startNextLine
  | .edges n => if n ≤ 1 then post.startNextLine else { post with phase := .edges (n - 1) }

/-- A host program placed in the machine: its first line starts at the next edge (R81). This is the load from outside that log 4 names. -/
def State.loadProgram (s : State) (lines : List HostLine) : State := { s with program := lines }.startNextLine

end Sys2Proof.Machine
end

