-- ==== Sys2Proof/Syntax.lean ====
section
/-! DEFINITION. The seven commands of spec/opcode_table.json (30_encoding.md rules R72 to R75). -/

namespace Sys2Proof

/-- One constructor for each row of the opcode table. Only ENC.MAN has an operand bit in its command word (R78); every other operand is an
input port, sampled when the command is accepted. -/
inductive Instr where
  /-- NOP, 0x00 (R194). -/
  | nop
  /-- ENC.MAN, 0x10 or 0x12 (R112); `mb` is `cmd[1]`, the manual parity bit. -/
  | encMan (mb : Bit)
  /-- ENC.ODD, 0x14 (R113). -/
  | encOdd
  /-- ENC.EVEN, 0x18 (R114). -/
  | encEven
  /-- INIT, 0x20 (R155). -/
  | init
  /-- XMIT.E, 0x30 (R156). -/
  | xmitE
  /-- XMIT.P, 0x38 (R157). -/
  | xmitP
  deriving DecidableEq, Repr

end Sys2Proof
end

