-- ==== Sys2Proof/WellFormed.lean ====
section
/-! DEFINITION. Which command words are legal (30_encoding.md rules R71 to R76) and which instructions are well-formed. -/

namespace Sys2Proof

/-- Bits 7:4, the opcode field `op` (R70). -/
def CmdWord.op (w : CmdWord) : BitVec 4 := w.extractLsb' 4 4

/-- Bits 3:2 of format E, the parity policy (R71, R73). -/
def CmdWord.pol (w : CmdWord) : BitVec 2 := w.extractLsb' 2 2

/-- Bit 1 of format E, the manual parity bit (R71, R73). -/
def CmdWord.mb (w : CmdWord) : Bit := w.extractLsb' 1 1

/-- Bit 3 of format X, where the frame's bytes come from (R71, R74). -/
def CmdWord.src (w : CmdWord) : Bit := w.extractLsb' 3 1

/-- Format N: op is NOP or INIT and the four low bits are 0 (R71). -/
def CmdWord.legalN (w : CmdWord) : Bool := (w.op == 0b0000#4 || w.op == 0b0010#4) && w.extractLsb' 0 4 == 0#4

/-- Format E: op is 0001, `pol` is not 11, `mb` is 0 unless the policy is Manual, bit 0 is 0 (R71, R73). -/
def CmdWord.legalE (w : CmdWord) : Bool :=
  w.op == 0b0001#4 && w.pol != 0b11#2 && (w.pol == 0b00#2 || w.mb == 0#1) && w.extractLsb' 0 1 == 0#1

/-- Format X: op is 0011 and the three low bits are 0 (R71). -/
def CmdWord.legalX (w : CmdWord) : Bool := w.op == 0b0011#4 && w.extractLsb' 0 3 == 0#3

/-- A legal command word by the field rules of R71 to R76: one of the three formats with its reserved bits 0. -/
def CmdWord.legal (w : CmdWord) : Bool := CmdWord.legalN w || CmdWord.legalE w || CmdWord.legalX w

/-- An instruction is well-formed when its fields fit its format. `mb` is one bit by its type (R73, D24) and there is no other field
(R78), so every `Instr` is well-formed; what can be ill-formed is a command word (`CmdWord.legal`) and a line of a host program
(`AsmLine.wf` in Machine/Assembler.lean). -/
def Instr.wf : Instr → Bool
  | .nop => true
  | .encMan mb => decide (mb.toNat < 2)
  | .encOdd => true
  | .encEven => true
  | .init => true
  | .xmitE => true
  | .xmitP => true

end Sys2Proof
end

