-- ==== Sys2Proof/Decode.lean ====
section
/-! DEFINITION. Decoding a command word by the rows of the opcode table (30_encoding.md rule R77) and encoding a command by its fields
(R71 to R74). A word no row matches is refused (R76: the accepted word then raises E_ILLEGAL). -/

namespace Sys2Proof

/-- One row of spec/opcode_table.json: a word belongs to it when `word &&& mask = pattern`; `build` reads the operand bits. -/
structure OpcodeRow where
  mnemonic : String
  pattern : CmdWord
  mask : CmdWord
  build : CmdWord → Instr

/-- The opcode table, in its own order. -/
def opcodeRows : List OpcodeRow :=
  [ ⟨"NOP", 0x00#8, 0xFF#8, fun _ => .nop⟩,
    ⟨"ENC.MAN", 0x10#8, 0xFD#8, fun w => .encMan (CmdWord.mb w)⟩,
    ⟨"ENC.ODD", 0x14#8, 0xFF#8, fun _ => .encOdd⟩,
    ⟨"ENC.EVEN", 0x18#8, 0xFF#8, fun _ => .encEven⟩,
    ⟨"INIT", 0x20#8, 0xFF#8, fun _ => .init⟩,
    ⟨"XMIT.E", 0x30#8, 0xFF#8, fun _ => .xmitE⟩,
    ⟨"XMIT.P", 0x38#8, 0xFF#8, fun _ => .xmitP⟩ ]

/-- Does the word match the row (R77)? -/
def OpcodeRow.matchesWord (r : OpcodeRow) (w : CmdWord) : Bool := w &&& r.mask == r.pattern

/-- The first row of a list that the word matches. -/
def decodeRows : List OpcodeRow → CmdWord → Option Instr
  | [], _ => none
  | r :: rows, w => if r.matchesWord w then some (r.build w) else decodeRows rows w

/-- Total decoding of the 256 words (R77): a command, or none for an illegal word (R76). -/
def decode (w : CmdWord) : Option Instr := decodeRows opcodeRows w

/-- The instruction an opcode-table row's bits `w` decode to: one byte, bit 0 the least significant. A command is one byte (R80), so
bits from 8 up belong to no command and are not read. -/
def decodeTableWord (nbits w : Nat) : Option Instr := decode (BitVec.ofNat 8 (w % 2 ^ nbits))

/-- Format N (R71): op, then four reserved bits. -/
def formatN (op : BitVec 4) : CmdWord := op ++ 0b0000#4

/-- Format E (R71): op 0001, the policy, the manual bit, a reserved bit. -/
def formatE (pol : BitVec 2) (mb : Bit) : CmdWord := 0b0001#4 ++ pol ++ mb ++ 0b0#1

/-- Format X (R71): op 0011, the source, three reserved bits. -/
def formatX (src : Bit) : CmdWord := 0b0011#4 ++ src ++ 0b000#3

/-- The command word of an instruction, from its fields (R71 to R74). -/
def encode : Instr → CmdWord
  | .nop => formatN 0b0000#4
  | .encMan mb => formatE 0b00#2 mb
  | .encOdd => formatE 0b01#2 0#1
  | .encEven => formatE 0b10#2 0#1
  | .init => formatN 0b0010#4
  | .xmitE => formatX 0b0#1
  | .xmitP => formatX 0b1#1

/-- The mnemonic of an instruction, as the opcode table spells it. -/
def Instr.mnemonic : Instr → String
  | .nop => "NOP"
  | .encMan _ => "ENC.MAN"
  | .encOdd => "ENC.ODD"
  | .encEven => "ENC.EVEN"
  | .init => "INIT"
  | .xmitE => "XMIT.E"
  | .xmitP => "XMIT.P"

-- Each constructor's decoding, by a word written out from the spec's encoding of it (R75).
theorem decode_nop : decode 0b00000000#8 = some .nop := by decide
theorem decode_encMan_mb0 : decode 0b00010000#8 = some (.encMan 0#1) := by decide
theorem decode_encMan_mb1 : decode 0b00010010#8 = some (.encMan 1#1) := by decide
theorem decode_encOdd : decode 0b00010100#8 = some .encOdd := by decide
theorem decode_encEven : decode 0b00011000#8 = some .encEven := by decide
theorem decode_init : decode 0b00100000#8 = some .init := by decide
theorem decode_xmitE : decode 0b00110000#8 = some .xmitE := by decide
theorem decode_xmitP : decode 0b00111000#8 = some .xmitP := by decide

end Sys2Proof
end

