-- ==== Sys2Proof/Machine/Command.lean ====
section
/-! DEFINITION. The command family N of 42_command.md: NOP (R194), and an accepted illegal word (R76, R212). A command's meaning is what the
command unit writes at the acceptance edge; Machine/Edge.lean merges it with the sequencer's and the shifter's writes (R197). -/

namespace Sys2Proof.Machine

/-- NOP (R194): no register changes. -/
def execNop (s : State) : Host.Outcome State Fault Refusal := .next s

/-- An accepted illegal word (R76, R193, R212): E_ILLEGAL and no other effect. -/
def execIllegal (s : State) : Host.Outcome State Fault Refusal := .next (s.raise .illegal)

end Sys2Proof.Machine
end

