-- ==== Sys2Proof/Machine/Encode.lean ====
section
/-! DEFINITION. The encode commands (40_encoder.md rules R112 to R114). None raises anything. -/

namespace Sys2Proof.Machine

/-- ENC.MAN (R112): the parity bit is `mb` verbatim (R106). -/
def execEncMan (mb : Bit) (s : State) : Host.Outcome State Fault Refusal := .next (s.writeWord (s.encodedOperands (.manual mb)))

/-- ENC.ODD (R113). -/
def execEncOdd (s : State) : Host.Outcome State Fault Refusal := .next (s.writeWord (s.encodedOperands .oddAuto))

/-- ENC.EVEN (R114). -/
def execEncEven (s : State) : Host.Outcome State Fault Refusal := .next (s.writeWord (s.encodedOperands .evenAuto))

end Sys2Proof.Machine
end

