-- ==== Sys2Proof/Machine/Transmit.lean ====
section
/-! DEFINITION. The transmitter commands (41_transmitter.md rules R155 to R157) with the faults they raise (60_exceptions.md R213 to R216). -/

namespace Sys2Proof.Machine

/-- INIT (R155): once; a second one raises E_REINIT (R213). -/
def execInit (s : State) : Host.Outcome State Fault Refusal :=
  if s.initd then .next (s.raise .reinit) else .next (s.configure s.ports.ops.inDiv)

/-- XMIT.E (R156): `INITD` is checked before `WVALID` (R216). -/
def execXmitE (s : State) : Host.Outcome State Fault Refusal :=
  if s.initd then
    if s.wvalid then .next (s.startFrame (serialize s.word)) else .next (s.raise .noword)
  else .next (s.raise .noinit)

/-- XMIT.P (R157): the bytes of `in_tx` as given; `WVALID` is not read. -/
def execXmitP (s : State) : Host.Outcome State Fault Refusal :=
  if s.initd then .next (s.startFrame (Frame.ofWord s.ports.ops.inTx)) else .next (s.raise .noinit)

end Sys2Proof.Machine
end

