-- ==== Sys2Proof/Machine/Dispatch.lean ====
section
/-! DEFINITION. One arm per command: what the command unit writes when the command is accepted (42_command.md rule R193). -/

namespace Sys2Proof.Machine

def exec (i : Instr) (s : State) : Host.Outcome State Fault Refusal :=
  match i with
  | .nop => Sys2Proof.Machine.execNop s
  | .encMan mb => Sys2Proof.Machine.execEncMan mb s
  | .encOdd => Sys2Proof.Machine.execEncOdd s
  | .encEven => Sys2Proof.Machine.execEncEven s
  | .init => Sys2Proof.Machine.execInit s
  | .xmitE => Sys2Proof.Machine.execXmitE s
  | .xmitP => Sys2Proof.Machine.execXmitP s

end Sys2Proof.Machine
end

