-- ==== Sys2Proof/Machine/Outputs.lean ====
section
/-! DEFINITION. The output ports (10_state.md rule R22; 41_transmitter.md rules R142, R143): functions of the registers, with no side effect. -/

namespace Sys2Proof.Machine

/-- `sck` (R142): low for the first H cycles of a bit period, high for the last H, low whenever no byte is shifting. -/
def State.sck (s : State) : Bool := s.act && decide (s.half ≤ s.ph)

/-- `sdo` (R143): `TSR[7]` while a byte shifts, else the open idle level (R8; log 1). -/
def State.sdo (s : State) : Bool := if s.act then s.tsr.getLsbD 7 else Config.sdoIdle

/-- The output ports (R22). -/
structure Outputs where
  cmdReady : Bool
  busy : Bool
  fault : BitVec 3
  initd : Bool
  wvalid : Bool
  word : Word32
  buf : Word32
  dre : Bool
  txc : Bool
  sck : Bool
  sdo : Bool
  deriving DecidableEq, Repr

/-- Every output port's value in a state (R22). -/
def State.outputs (s : State) : Outputs :=
  { cmdReady := s.cmdReady, busy := s.busy, fault := s.fault, initd := s.initd, wvalid := s.wvalid, word := s.word,
    buf := (serialize s.word).toWord, dre := s.dre, txc := s.txc, sck := s.sck, sdo := s.sdo }

end Sys2Proof.Machine
end

