-- ==== Sys2Proof/Machine/Sequencer.lean ====
section
/-! DEFINITION. The frame sequencer (41_transmitter.md rules R152 to R154). It reads the pre-edge state `pre` and writes into `cur`, which
holds the other processes' writes of the same edge (00_scope.md rule R12, 42_command.md rule R197). -/

namespace Sys2Proof.Machine

/-- `TXBUF[IDX]` (R30, R152); a free byte for an `IDX` above 3, which no run from reset reaches (R32; log 8). -/
def State.nextFrameByte (s : State) : Byte :=
  match s.txbuf.byteAt s.idx.toNat with
  | some b => b
  | none => Config.txbufBeyond s.draws

/-- LOAD with `DRE = 1` (R152): write the next frame byte into the shift source. -/
def loadByte (pre cur : State) : State :=
  { cur with
    tdr := pre.nextFrameByte, dre := false, idx := pre.idx + 1#3,
    seq := if pre.idx = 3#3 then .waitc else cur.seq,
    draws := if pre.idx.toNat < 4 then cur.draws else cur.draws + 1 }

/-- One edge of the sequencer. -/
def sequencer (pre cur : State) : State :=
  match pre.seq with
  | .idle => cur                                                -- R154
  | .load => if pre.dre then loadByte pre cur else cur          -- R152
  | .waitc => if pre.txc then { cur with seq := .idle } else cur  -- R153

end Sys2Proof.Machine
end

