-- ==== Sys2Proof/Machine/Shifter.lean ====
section
/-! DEFINITION. The shifter and its clock generator (41_transmitter.md rules R145 to R150 in the order of R165). It reads the pre-edge
state `pre` and writes into `cur`, which holds the other processes' writes of the same edge (00_scope.md rule R12). -/

namespace Sys2Proof.Machine

/-- Which of the six cases applies (R165). -/
inductive ShiftCase where
  | startByte      -- R145
  | idle           -- R150
  | advancePhase   -- R146
  | nextBit        -- R147
  | nextByte       -- R148
  | endOfFrame     -- R149
  deriving DecidableEq, Repr

/-- The case tests of R165, in their order. -/
def State.shiftCase (s : State) : ShiftCase :=
  if s.act = false ∧ s.dre = false then .startByte
  else if s.act = false then .idle
  else if s.ph < s.lastPhase then .advancePhase
  else if s.bitn < 7#3 then .nextBit
  else if s.dre = false then .nextByte
  else .endOfFrame

/-- One edge of the shifter. -/
def shifter (pre cur : State) : State :=
  match pre.shiftCase with
  | .startByte => { cur with tsr := pre.tdr, dre := true, act := true, bitn := 0#3, ph := 0#17 }
  | .idle => cur
  | .advancePhase => { cur with ph := pre.ph + 1#17 }
  | .nextBit => { cur with bitn := pre.bitn + 1#3, tsr := pre.tsr <<< 1, ph := 0#17 }
  | .nextByte => { cur with tsr := pre.tdr, dre := true, bitn := 0#3, ph := 0#17 }
  | .endOfFrame => { cur with act := false, txc := true, bitn := 0#3, ph := 0#17 }

end Sys2Proof.Machine
end

