-- ==== Sys2Proof/Machine/Edge.lean ====
section
/-! DEFINITION. One rising edge of the block (42_command.md rule R197), and the block under any list of port values. -/

namespace Sys2Proof.Machine

/-- The command unit (R190, R193, R197): an accepted word is decoded and performed; otherwise nothing changes. -/
def commandUnit (s : State) : Host.Outcome State Fault Refusal :=
  if s.accepted then
    match decode s.ports.cmd with
    | some i => exec i s
    | none => execIllegal s
  else .next s

/-- Do the command unit (which left `c`) and the shifter both write TXC at this edge? R198 excludes it in every reachable state. -/
def State.txcWrittenTwice (pre c : State) : Bool :=
  decide (pre.seq = .idle) && decide (c.seq ≠ .idle) && decide (pre.shiftCase = .endOfFrame)

/-- The merged writes of one edge with TXC settled: written twice, it takes a free value (log 9). -/
def settleTxc (pre c merged : State) : State :=
  if pre.txcWrittenTwice c then { merged with txc := Config.txcDoubleWrite pre.draws, draws := merged.draws + 1 } else merged

/-- The sequencer's and the shifter's writes of an edge, merged with the command unit's, which left `c` (R12, R197). -/
def mergeWrites (pre c : State) : State := settleTxc pre c (shifter pre (sequencer pre c))

/-- One edge of the block (R197): reset first, else the three processes on the same pre-edge state. -/
def edge (s : State) : Host.Outcome State Fault Refusal :=
  if s.ports.rst then .next s.resetEdge
  else
    match commandUnit s with
    | .next c => .next (mergeWrites s c)
    | .fault r => .fault r
    | .refused r => .refused r

/-- The block under any host: one edge for each entry, with the ports at that entry's values (R199). The state after the last edge. -/
def runPorts : List Ports → State → Host.Outcome State Fault Refusal
  | [], s => .next s
  | p :: ps, s =>
    match edge (s.drivenBy p) with
    | .next t => runPorts ps t
    | .fault r => .fault r
    | .refused r => .refused r

/-- The bit a receiver samples between two states (R144): `sdo`, when `sck` rises. -/
def sampledBit (before after : State) : List Bool := if !before.sck && after.sck then [after.sdo] else []

/-- The bits a receiver samples while the block runs under the given port values, first bit first (R144, R159). -/
def wireBits : List Ports → State → List Bool
  | [], _ => []
  | p :: ps, s =>
    match edge (s.drivenBy p) with
    | .next t => sampledBit s t ++ wireBits ps t
    | .fault _ => []
    | .refused _ => []

end Sys2Proof.Machine
end

