-- ==== Sys2Proof/Machine/Step.lean ====
section
/-! DEFINITION. One step of the machine: an edge of the block, then the host sets the ports for the next edge. -/

namespace Sys2Proof.Machine

def step (s : State) : Host.Outcome State Fault Refusal :=
  match edge s with
  | .next t => .next (driver s t)
  | .fault r => .fault r
  | .refused r => .refused r

/-- The state whose next step accepts and runs the command of an opcode-table row's bits (log 4). -/
def State.withFetchWord (s : State) (nbits w : Nat) : State := s.presenting (BitVec.ofNat 8 (w % 2 ^ nbits))

end Sys2Proof.Machine
end

