-- ==== Sys2Proof/Machine/Assembler.lean ====
section
/-! DEFINITION. Host programs as R81 and R82 of 30_encoding.md write them: lines, pseudo-instructions and host directives, their text form,
and the port values each line drives. A line the assembler refuses has no translation. -/

namespace Sys2Proof.Machine

/-- The parity policy as a pseudo-instruction writes it (R82); the manual bit is a host number. -/
inductive AsmPolicy where
  | manual (b : Nat)
  | oddAuto
  | evenAuto
  deriving DecidableEq, Repr

/-- The ENC operands of a line, host numbers of any size (R79). -/
structure AsmFields where
  label : Nat
  sdi : Nat
  data : Nat
  ssm : Nat
  deriving DecidableEq, Repr

/-- One line of a host program (R81, R82). -/
inductive AsmLine where
  | nop
  | encMan (mb : Nat) (f : AsmFields)
  | encOdd (f : AsmFields)
  | encEven (f : AsmFields)
  | init (div : Nat)
  | xmitE
  | xmitP (bytes : Nat)
  | wait (n : Nat)
  | reset
  | cmd (v : Nat)
  | enc (pol : AsmPolicy) (f : AsmFields)
  | send (pol : AsmPolicy) (f : AsmFields)
  | transmit (b0 b1 b2 b3 : Nat)
  deriving DecidableEq, Repr

/-- Is a policy's manual bit 0 or 1 (R81)? -/
def asmPolicyWf : AsmPolicy → Bool
  | .manual b => decide (b ≤ 1)
  | .oddAuto => true
  | .evenAuto => true

/-- Does the assembler take the line? `mb` must be 0 or 1 (R81, D24); `CMD v` takes 0 to 255 (R81). -/
def asmLineWf : AsmLine → Bool
  | .nop => true
  | .encMan mb _ => decide (mb ≤ 1)
  | .encOdd _ => true
  | .encEven _ => true
  | .init _ => true
  | .xmitE => true
  | .xmitP _ => true
  | .wait _ => true
  | .reset => true
  | .cmd v => decide (v ≤ 255)
  | .enc pol _ => asmPolicyWf pol
  | .send pol _ => asmPolicyWf pol
  | .transmit _ _ _ _ => true

/-- The ENC operand ports of a line's host numbers, truncated (R79). -/
def AsmFields.operands (f : AsmFields) : Operands := Operands.forEnc f.label f.sdi f.data f.ssm

/-- The command an `ENC policy, ...` pseudo-instruction expands to (R82). -/
def encLine : AsmPolicy → AsmFields → HostLine
  | .manual b, f => .present (encode (.encMan (BitVec.ofNat 1 b))) f.operands
  | .oddAuto, f => .present (encode .encOdd) f.operands
  | .evenAuto, f => .present (encode .encEven) f.operands

/-- `{b0, b1, b2, b3}` with b0 in bits 31:24, each cut to a byte (R82; log 12). -/
def packBytes (b0 b1 b2 b3 : Nat) : Word32 := Frame.toWord ⟨BitVec.ofNat 8 b0, BitVec.ofNat 8 b1, BitVec.ofNat 8 b2, BitVec.ofNat 8 b3⟩

/-- The host lines a taken line stands for: one, or two for SEND (R81, R82). -/
def expandLine : AsmLine → List HostLine
  | .nop => [.present (encode .nop) Operands.zero]
  | .encMan mb f => [encLine (.manual mb) f]
  | .encOdd f => [encLine .oddAuto f]
  | .encEven f => [encLine .evenAuto f]
  | .init d => [.present (encode .init) (Operands.forInit d)]
  | .xmitE => [.present (encode .xmitE) Operands.zero]
  | .xmitP b => [.present (encode .xmitP) (Operands.forXmitP b)]
  | .wait n => [.wait n]
  | .reset => [.reset]
  | .cmd v => [.present (BitVec.ofNat 8 v) Operands.zero]
  | .enc pol f => [encLine pol f]
  | .send pol f => [encLine pol f, .present (encode .xmitE) Operands.zero]
  | .transmit b0 b1 b2 b3 => [.present (encode .xmitP) { Operands.zero with inTx := packBytes b0 b1 b2 b3 }]

/-- A whole program assembled, or none if the assembler refuses a line. -/
def assemble : List AsmLine → Option (List HostLine)
  | [] => some []
  | l :: ls => if asmLineWf l then (assemble ls).map (expandLine l ++ ·) else none

/-- A piece of a line's text. -/
inductive AsmToken where
  | word (cs : List Char)
  | num (n : Nat)
  | comma
  | openParen
  | closeParen
  deriving DecidableEq, Repr

/-- The value of a digit in a base of at most 16; a hexadecimal letter of either case (DESIGN CHOICE, log 14). -/
def digitValue (base : Nat) (c : Char) : Option Nat :=
  let v :=
    if '0' ≤ c ∧ c ≤ '9' then c.toNat - '0'.toNat
    else if 'a' ≤ c ∧ c ≤ 'f' then c.toNat - 'a'.toNat + 10
    else if 'A' ≤ c ∧ c ≤ 'F' then c.toNat - 'A'.toNat + 10
    else base
  if v < base then some v else none

/-- The value of a run of digits, most significant first. -/
def digitsValue (base : Nat) : List Char → Nat → Option Nat
  | [], acc => some acc
  | c :: cs, acc =>
    match digitValue base c with
    | some v => digitsValue base cs (acc * base + v)
    | none => none

/-- A word or a number: decimal, or hexadecimal after `0x` (R81), the `x` in lower case only (DESIGN CHOICE, log 14). -/
def tokenOf : List Char → Option AsmToken
  | [] => none
  | ['0', 'x'] => none
  | '0' :: 'x' :: cs => (digitsValue 16 cs 0).map .num
  | c :: cs =>
    if '0' ≤ c ∧ c ≤ '9' then (digitsValue 10 (c :: cs) 0).map .num else some (.word (c :: cs))

/-- Puts the characters read so far (last first) before the tokens that follow. -/
def flushToken (acc : List Char) (rest : Option (List AsmToken)) : Option (List AsmToken) :=
  if acc = [] then rest
  else
    match tokenOf acc.reverse with
    | some t => rest.map (t :: ·)
    | none => none

/-- The tokens of a line's text; `acc` holds the characters of the token being read, last first. DESIGN CHOICE (log 14): any number of
spaces may stand before the first token, between tokens and after the last, and no other blank. -/
def tokens : List Char → List Char → Option (List AsmToken)
  | [], acc => flushToken acc (some [])
  | ' ' :: cs, acc => flushToken acc (tokens cs [])
  | ',' :: cs, acc => flushToken acc ((tokens cs []).map (.comma :: ·))
  | '(' :: cs, acc => flushToken acc ((tokens cs []).map (.openParen :: ·))
  | ')' :: cs, acc => flushToken acc ((tokens cs []).map (.closeParen :: ·))
  | c :: cs, acc => tokens cs (c :: acc)

/-- The numbers of an operand list, separated by commas. DESIGN CHOICE (log 14): a comma after the last number, which R81 neither shows nor
refuses, is taken as if it were absent. -/
def operandList : List AsmToken → Option (List Nat)
  | [] => some []
  | [.num n] => some [n]
  | .num n :: .comma :: ts => (operandList ts).map (n :: ·)
  | _ => none

/-- A policy and the operands after it, `policy, label, sdi, data, ssm` (R82). -/
def policyAndFields : List AsmToken → Option (AsmPolicy × List Nat)
  | .word cs :: .openParen :: .num b :: .closeParen :: .comma :: ts =>
    if cs = "Manual".toList then (operandList ts).map (AsmPolicy.manual b, ·) else none
  | .word cs :: .comma :: ts =>
    if cs = "OddAuto".toList then (operandList ts).map (AsmPolicy.oddAuto, ·)
    else if cs = "EvenAuto".toList then (operandList ts).map (AsmPolicy.evenAuto, ·)
    else none
  | _ => none

/-- A command or directive of R81 with its operands. -/
def plainLine (name : List Char) (ns : List Nat) : Option AsmLine :=
  match ns with
  | [] =>
    if name = "NOP".toList then some .nop
    else if name = "XMIT.E".toList then some .xmitE
    else if name = "RESET".toList then some .reset
    else none
  | [n] =>
    if name = "INIT".toList then some (.init n)
    else if name = "XMIT.P".toList then some (.xmitP n)
    else if name = "WAIT".toList then some (.wait n)
    else if name = "CMD".toList then some (.cmd n)
    else none
  | [a, b, c, d] =>
    if name = "ENC.ODD".toList then some (.encOdd ⟨a, b, c, d⟩)
    else if name = "ENC.EVEN".toList then some (.encEven ⟨a, b, c, d⟩)
    else if name = "TRANSMIT".toList then some (.transmit a b c d)
    else none
  | [mb, a, b, c, d] => if name = "ENC.MAN".toList then some (.encMan mb ⟨a, b, c, d⟩) else none
  | _ => none

/-- A pseudo-instruction of R82 that takes a policy. -/
def policyLine (name : List Char) (pf : AsmPolicy × List Nat) : Option AsmLine :=
  match pf.2 with
  | [a, b, c, d] =>
    if name = "ENC".toList then some (.enc pf.1 ⟨a, b, c, d⟩)
    else if name = "SEND".toList then some (.send pf.1 ⟨a, b, c, d⟩)
    else none
  | _ => none

/-- The line a list of tokens spells, or none. -/
def lineOfTokens : List AsmToken → Option AsmLine
  | .word name :: .word cs :: ts => (policyAndFields (.word cs :: ts)).bind (policyLine name)
  | .word name :: ts => (operandList ts).bind (plainLine name)
  | _ => none

/-- The line a text spells (R81, R82), or none; a taken line also meets `asmLineWf`. What the tables of R81 and R82 leave open of the text is
log 14's. -/
def parseLine (text : String) : Option AsmLine :=
  match (tokens text.toList []).bind lineOfTokens with
  | some l => if asmLineWf l then some l else none
  | none => none

/-- A program's text, one string a line, assembled (R81). -/
def assembleText : List String → Option (List HostLine)
  | [] => some []
  | t :: ts =>
    match parseLine t with
    | some l => (assembleText ts).map (expandLine l ++ ·)
    | none => none

end Sys2Proof.Machine
end

