-- ==== Sys2Proof/Safety.lean ====
section
/-! DEFINITION. What the claims are stated in: the invariants of 10_state.md rule R42, what makes them inductive, and which states a block
that was reset can reach under any host. -/

namespace Sys2Proof.Machine

/-- The seven invariants R42 lists, in its order. -/
abbrev State.FactsOfR42 (s : State) : Prop :=
  (s.act = false → s.ph = 0 ∧ s.bitn = 0) ∧
  (s.act = true → s.initd = true ∧ s.ph.toNat ≤ 2 * (s.div.toNat + 1) - 1) ∧
  (s.seq = .idle → s.act = false ∧ s.dre = true) ∧
  ((s.seq = .load → s.idx.toNat ≤ 3) ∧ (s.seq = .waitc → s.idx.toNat = 4)) ∧
  (s.seq = .waitc → s.txc = true → s.act = false ∧ s.dre = true) ∧
  (s.txc = true → s.act = false) ∧
  (s.seq ≠ .idle → s.initd = true ∧ s.fault = 0)

/-- What a step needs besides R42 to keep it: no completion flag while loading; a byte just started is replaced in TDR at the next edge; a
WAITC with nothing left to send has its completion flag; no reserved fault code (I18). -/
abbrev State.LoadingFacts (s : State) : Prop :=
  (s.seq = .load → s.txc = false) ∧
  (s.seq = .load → s.act = true → s.dre = true → s.ph = 0 ∧ s.bitn = 0) ∧
  (s.seq = .waitc → s.act = false → s.dre = true → s.txc = true) ∧
  s.fault.toNat ≤ 4

/-- The machine's invariant. -/
abbrev State.Inv (s : State) : Prop := s.FactsOfR42 ∧ s.LoadingFacts

/-- Every register of the block holds its reset value (R240), whatever the host and the parameters are. -/
abbrev State.AtReset (s : State) : Prop := s = s.resetEdge

/-- The states a block that was reset can be in, under any host (R199): steps of the machine, with the host free to put any values on the
ports and to change its program between edges. -/
inductive Reachable : State → Prop where
  | reset (s : State) : s.AtReset → Reachable s
  | step (s t : State) : Reachable s → step s = .next t → Reachable t
  | host (s : State) (p : Ports) (ph : HostPhase) (lines : List HostLine) :
      Reachable s → Reachable { s with ports := p, phase := ph, program := lines }

/-- `H`, the half bit period in clock cycles, as a number (R141). -/
abbrev State.halfPeriod (s : State) : Nat := s.div.toNat + 1

/-- Which bit of the packed word is the n-th on the wire, first to last (R58). -/
abbrev wireIndex (n : Nat) : Nat := if n < 8 then 31 - n else if n < 16 then n + 8 else if n < 24 then n - 8 else n - 24

/-- The command unit's own registers and the frame it would start (R198). -/
abbrev SameCommandRegisters (s t : State) : Prop :=
  t.div = s.div ∧ t.initd = s.initd ∧ t.word = s.word ∧ t.wvalid = s.wvalid ∧ t.fault = s.fault ∧ t.txbuf = s.txbuf

/-- An XMIT accepted at this edge starts a frame, and `t0` is the state after its acceptance edge (R158). -/
abbrev FrameStarts (s t0 : State) : Prop := s.accepted = true ∧ edge s = .next t0 ∧ t0.seq = .load

/-- A command of the ENC family (R72). -/
abbrev IsEncInstr (i : Instr) : Prop := i = .encMan 0#1 ∨ i = .encMan 1#1 ∨ i = .encOdd ∨ i = .encEven

/-- A command word of the ENC family (R72, R75). -/
abbrev IsEncWord (w : CmdWord) : Prop := w = 0x10#8 ∨ w = 0x12#8 ∨ w = 0x14#8 ∨ w = 0x18#8

end Sys2Proof.Machine
end

