-- ==== Sys2Proof/Certificates/Slice0/Obligations.lean ====
section
/-! DEFINITION. The statements for the provers. Each docstring names the rules of spec/ it formalises. -/

open Sys2Proof Sys2Proof.Machine

/-! ### Encoding -/

/-- R75: exactly eight words are legal, and what each decodes to. -/
def Obligations.EightLegalWords : Prop :=
  decode 0x00#8 = some .nop ∧ decode 0x10#8 = some (.encMan 0#1) ∧ decode 0x12#8 = some (.encMan 1#1) ∧
  decode 0x14#8 = some .encOdd ∧ decode 0x18#8 = some .encEven ∧ decode 0x20#8 = some .init ∧
  decode 0x30#8 = some .xmitE ∧ decode 0x38#8 = some .xmitP ∧
  ∀ w : CmdWord, (decode w).isSome ↔ w ∈ [0x00#8, 0x10#8, 0x12#8, 0x14#8, 0x18#8, 0x20#8, 0x30#8, 0x38#8]

/-- R77: decoding follows the table's rows by mask and match, is total, and no two rows match one value. -/
def Obligations.DecodingFollowsTheRows : Prop :=
  ∀ w : CmdWord,
    decode w = (opcodeRows.find? (fun r => r.matchesWord w)).map (fun r => r.build w) ∧
    (opcodeRows.filter (fun r => r.matchesWord w)).length ≤ 1 ∧
    (decode w = none ↔ ∀ r ∈ opcodeRows, w &&& r.mask ≠ r.pattern)

/-- The command formats of R71 to R74: decoding an encoded command gives it back, and a word that decodes is its command's encoding, so no
bit of an encoding is dropped. -/
def Obligations.DecodeAndEncodeAgree : Prop :=
  (∀ i : Instr, i.wf = true → decode (encode i) = some i) ∧ (∀ (w : CmdWord) (i : Instr), decode w = some i → encode i = w)

/-- R212 (with R76's list of the illegal words): 248 words are illegal, which ones, and what an accepted one does. -/
def Obligations.IllegalWordsRaiseIllegal : Prop :=
  (∀ w : CmdWord, decode w = none ↔
    (4 ≤ w.toNat / 16 ∨
     (w.toNat / 16 = 0 ∨ w.toNat / 16 = 2) ∧ w.toNat % 16 ≠ 0 ∨
     w.toNat / 16 = 1 ∧ (w.toNat / 4 % 4 = 3 ∨ w.toNat / 4 % 4 ≠ 0 ∧ w.toNat / 2 % 2 = 1 ∨ w.toNat % 2 = 1) ∨
     w.toNat / 16 = 3 ∧ w.toNat % 8 ≠ 0)) ∧
  ((List.range 256).filter (fun n => decide (decode (BitVec.ofNat 8 n) = none))).length = 248 ∧
  (∀ s : State, s.accepted = true → decode s.ports.cmd = none → commandUnit s = .next { s with fault := 1#3 })

/-- R79: a host value reaches its port by its low bits. The assembler takes every ENC, INIT and XMIT.P operand value. -/
def Obligations.HostValuesAreTruncated : Prop :=
  (∀ label sdi data ssm : Nat,
    (Operands.forEnc label sdi data ssm).inLabel.toNat = label % 2 ^ 8 ∧
    (Operands.forEnc label sdi data ssm).inSdi.toNat = sdi % 2 ^ 2 ∧
    (Operands.forEnc label sdi data ssm).inData.toNat = data % 2 ^ 19 ∧
    (Operands.forEnc label sdi data ssm).inSsm.toNat = ssm % 2 ^ 2) ∧
  (∀ div : Nat, (Operands.forInit div).inDiv.toNat = div % 2 ^ 16) ∧
  (∀ bytes : Nat, (Operands.forXmitP bytes).inTx.toNat = bytes % 2 ^ 32) ∧
  (∀ f : AsmFields, asmLineWf (.encOdd f) = true ∧ asmLineWf (.encEven f) = true ∧ asmLineWf (.encMan 0 f) = true ∧
    asmLineWf (.encMan 1 f) = true) ∧
  (∀ n : Nat, asmLineWf (.init n) = true ∧ asmLineWf (.xmitP n) = true)

/-- R82: what each pseudo-instruction expands to. -/
def Obligations.PseudoInstructionsExpand : Prop :=
  (∀ (b : Nat) (f : AsmFields), expandLine (.enc (.manual b) f) = expandLine (.encMan b f)) ∧
  (∀ f : AsmFields, expandLine (.enc .oddAuto f) = expandLine (.encOdd f)) ∧
  (∀ f : AsmFields, expandLine (.enc .evenAuto f) = expandLine (.encEven f)) ∧
  (∀ (pol : AsmPolicy) (f : AsmFields), expandLine (.send pol f) = expandLine (.enc pol f) ++ expandLine .xmitE) ∧
  (∀ b0 b1 b2 b3 : Byte, expandLine (.transmit b0.toNat b1.toNat b2.toNat b3.toNat) =
    expandLine (.xmitP (b0.toNat * 2 ^ 24 + b1.toNat * 2 ^ 16 + b2.toNat * 2 ^ 8 + b3.toNat)))

/-! ### The encoder's functions -/

/-- R101: `rev8` mirrors the eight bits; the rule's four examples. -/
def Obligations.ReversalMirrorsBits : Prop :=
  (∀ (b : Byte) (i : Nat), i < 8 → (rev8 b).getLsbD i = b.getLsbD (7 - i)) ∧
  rev8 0x5B#8 = 0xDA#8 ∧ rev8 0x01#8 = 0x80#8 ∧ rev8 0x12#8 = 0x48#8 ∧ rev8 0xA5#8 = 0xA5#8

/-- R102: reversal is an involution and keeps the number of 1 bits. -/
def Obligations.ReversalLaws : Prop := ∀ b : Byte, rev8 (rev8 b) = b ∧ popcount (rev8 b) = popcount b

/-- R103: where `pack` puts each field under both layouts, and `U[0] = 0`. -/
def Obligations.PackPlacesEveryField : Prop :=
  ∀ (label : Label) (sdi : Sdi) (data : Data) (ssm : Ssm),
    ((pack .full label sdi data ssm).extractLsb' 24 8 = rev8 label ∧
     (pack .full label sdi data ssm).extractLsb' 22 2 = sdi ∧
     (pack .full label sdi data ssm).extractLsb' 3 19 = data ∧
     (pack .full label sdi data ssm).extractLsb' 1 2 = ssm ∧
     (pack .full label sdi data ssm).extractLsb' 0 1 = 0#1) ∧
    ((pack .sourceLiteral label sdi data ssm).extractLsb' 24 8 = rev8 label ∧
     (pack .sourceLiteral label sdi data ssm).extractLsb' 22 2 = sdi ∧
     (pack .sourceLiteral label sdi data ssm).extractLsb' 21 1 = 0#1 ∧
     (pack .sourceLiteral label sdi data ssm).extractLsb' 2 19 = data ∧
     (pack .sourceLiteral label sdi data ssm).extractLsb' 1 1 = ssm.extractLsb' 0 1 ∧
     (pack .sourceLiteral label sdi data ssm).extractLsb' 0 1 = 0#1)

/-- R83 and R84: the packed word W field by field, parity at bit 0, under each layout. -/
def Obligations.PackedWordLayouts : Prop :=
  ∀ (m : ParityMask) (label : Label) (sdi : Sdi) (data : Data) (ssm : Ssm) (pol : Policy),
    ((encodeWord ⟨.full, m⟩ label sdi data ssm pol).extractLsb' 24 8 = rev8 label ∧
     (encodeWord ⟨.full, m⟩ label sdi data ssm pol).extractLsb' 22 2 = sdi ∧
     (encodeWord ⟨.full, m⟩ label sdi data ssm pol).extractLsb' 3 19 = data ∧
     (encodeWord ⟨.full, m⟩ label sdi data ssm pol).extractLsb' 1 2 = ssm ∧
     (encodeWord ⟨.full, m⟩ label sdi data ssm pol).extractLsb' 0 1 = parityBit m pol (pack .full label sdi data ssm)) ∧
    ((encodeWord ⟨.sourceLiteral, m⟩ label sdi data ssm pol).extractLsb' 24 8 = rev8 label ∧
     (encodeWord ⟨.sourceLiteral, m⟩ label sdi data ssm pol).extractLsb' 22 2 = sdi ∧
     (encodeWord ⟨.sourceLiteral, m⟩ label sdi data ssm pol).extractLsb' 21 1 = 0#1 ∧
     (encodeWord ⟨.sourceLiteral, m⟩ label sdi data ssm pol).extractLsb' 2 19 = data ∧
     (encodeWord ⟨.sourceLiteral, m⟩ label sdi data ssm pol).extractLsb' 1 1 = ssm.extractLsb' 0 1 ∧
     (encodeWord ⟨.sourceLiteral, m⟩ label sdi data ssm pol).extractLsb' 0 1 =
       parityBit m pol (pack .sourceLiteral label sdi data ssm))

/-- R104: the halving folds compute the population count modulo 2, for every value. -/
def Obligations.XorFoldIsPopcountParity : Prop := ∀ v : Word32, (xorFold32 v).toNat = popcount v % 2

/-- R105: which bits each mask lets into the parity generator. -/
def Obligations.ParityInputCoverage : Prop :=
  ∀ (u : Word32) (i : Nat), i < 32 →
    (parityInput .exceptParity u).getLsbD i = (decide (i ≠ 0) && u.getLsbD i) ∧
    (parityInput .exceptTop u).getLsbD i = (decide (i ≠ 31) && u.getLsbD i)

/-- R106, R107, R108: the parity bit of each policy, by the population count of P_IN. -/
def Obligations.ParityBitOfEachPolicy : Prop :=
  ∀ (m : ParityMask) (u : Word32),
    (∀ b : Bit, parityBit m (.manual b) u = b) ∧
    (parityBit m .oddAuto u).toNat = (if popcount (parityInput m u) % 2 = 0 then 1 else 0) ∧
    (parityBit m .evenAuto u).toNat = (if popcount (parityInput m u) % 2 = 0 then 0 else 1) ∧
    parityBit m .evenAuto u = ~~~ (parityBit m .oddAuto u)

/-- R109: the parity bit is inserted at bit 0 and every other bit of U stays. -/
def Obligations.ParityInsertedAtBitZero : Prop :=
  ∀ (u : Word32) (p : Bit), u.getLsbD 0 = false →
    (insertParity u p).extractLsb' 0 1 = p ∧ (insertParity u p).extractLsb' 1 31 = u.extractLsb' 1 31

/-- R85: the buffer's bytes, and the parity bit as bit 7 of B3. -/
def Obligations.BufferFormat : Prop :=
  ∀ w : Word32,
    (serialize w).b0 = w.extractLsb' 24 8 ∧ (serialize w).b1 = rev8 (w.extractLsb' 16 8) ∧
    (serialize w).b2 = rev8 (w.extractLsb' 8 8) ∧ (serialize w).b3 = rev8 (w.extractLsb' 0 8) ∧
    (serialize w).b3.getLsbD 7 = w.getLsbD 0

/-- R86: which field bit each buffer bit holds under FULL. -/
def Obligations.BufferFieldPositions : Prop :=
  ∀ (m : ParityMask) (label : Label) (sdi : Sdi) (data : Data) (ssm : Ssm) (pol : Policy) (f : Frame),
    f = serialize (encodeWord ⟨.full, m⟩ label sdi data ssm pol) →
    (∀ i < 8, f.b0.getLsbD (7 - i) = label.getLsbD i) ∧
    (∀ i < 6, f.b1.getLsbD (7 - i) = data.getLsbD (13 + i)) ∧
    f.b1.getLsbD 1 = sdi.getLsbD 0 ∧ f.b1.getLsbD 0 = sdi.getLsbD 1 ∧
    (∀ i < 8, f.b2.getLsbD (7 - i) = data.getLsbD (5 + i)) ∧
    f.b3.getLsbD 7 = (parityBit m pol (pack .full label sdi data ssm)).getLsbD 0 ∧
    f.b3.getLsbD 6 = ssm.getLsbD 0 ∧ f.b3.getLsbD 5 = ssm.getLsbD 1 ∧
    (∀ i < 5, f.b3.getLsbD (4 - i) = data.getLsbD i)

/-- R56: byte j of a frame is bits `[31-8j : 24-8j]` of a 32-bit port, both ways. -/
def Obligations.PortByteOrder : Prop :=
  (∀ f : Frame, (Frame.toWord f).extractLsb' 24 8 = f.b0 ∧ (Frame.toWord f).extractLsb' 16 8 = f.b1 ∧
    (Frame.toWord f).extractLsb' 8 8 = f.b2 ∧ (Frame.toWord f).extractLsb' 0 8 = f.b3) ∧
  (∀ s : State, s.outputs.buf = Frame.toWord (serialize s.word)) ∧
  (∀ s : State, s.initd = true → ∃ t, exec .xmitP s = .next t ∧
    t.txbuf.b0 = s.ports.ops.inTx.extractLsb' 24 8 ∧ t.txbuf.b1 = s.ports.ops.inTx.extractLsb' 16 8 ∧
    t.txbuf.b2 = s.ports.ops.inTx.extractLsb' 8 8 ∧ t.txbuf.b3 = s.ports.ops.inTx.extractLsb' 0 8)

/-- R115: decoding the buffer of an encoded word gives the operands and the policy's parity bit back, under FULL. -/
def Obligations.EncodeDecodeRoundTrip : Prop :=
  ∀ (m : ParityMask) (label : Label) (sdi : Sdi) (data : Data) (ssm : Ssm) (pol : Policy),
    decodeBuffer (serialize (encodeWord ⟨.full, m⟩ label sdi data ssm pol)) =
      { label := label, sdi := sdi, data := data, ssm := ssm, parity := parityBit m pol (pack .full label sdi data ssm) }

/-- R116: the word's parity under each policy with the default mask and either layout; with the other mask the law holds for `W[30:0]`
only, and the whole word's parity is wrong whenever `label[0] = 1`. -/
def Obligations.WordParityIsCorrect : Prop :=
  (∀ (l : Layout) (label : Label) (sdi : Sdi) (data : Data) (ssm : Ssm),
    popcount (encodeWord ⟨l, .exceptParity⟩ label sdi data ssm .oddAuto) % 2 = 1 ∧
    popcount (encodeWord ⟨l, .exceptParity⟩ label sdi data ssm .evenAuto) % 2 = 0 ∧
    ∀ x : Bit, (encodeWord ⟨l, .exceptParity⟩ label sdi data ssm (.manual x)).extractLsb' 0 1 = x) ∧
  (∀ (l : Layout) (label : Label) (sdi : Sdi) (data : Data) (ssm : Ssm),
    popcount ((encodeWord ⟨l, .exceptTop⟩ label sdi data ssm .oddAuto).extractLsb' 0 31) % 2 = 1 ∧
    popcount ((encodeWord ⟨l, .exceptTop⟩ label sdi data ssm .evenAuto).extractLsb' 0 31) % 2 = 0 ∧
    (label.getLsbD 0 = true →
      popcount (encodeWord ⟨l, .exceptTop⟩ label sdi data ssm .oddAuto) % 2 = 0 ∧
      popcount (encodeWord ⟨l, .exceptTop⟩ label sdi data ssm .evenAuto) % 2 = 1))

/-- R117: two manual parity bits give words that differ in `W[0]` only and buffers that differ in bit 7 of B3 only. -/
def Obligations.ManualParityIsIsolated : Prop :=
  ∀ (p : Params) (label : Label) (sdi : Sdi) (data : Data) (ssm : Ssm) (w1 w0 : Word32),
    w1 = encodeWord p label sdi data ssm (.manual 1#1) → w0 = encodeWord p label sdi data ssm (.manual 0#1) →
    w1 ^^^ w0 = 1#32 ∧
    (serialize w1).b0 = (serialize w0).b0 ∧ (serialize w1).b1 = (serialize w0).b1 ∧ (serialize w1).b2 = (serialize w0).b2 ∧
    (serialize w1).b3 ^^^ (serialize w0).b3 = 0x80#8

/-- R118: under FULL, operands that differ anywhere give buffers that differ, for every policy, because `pack` is injective, gives every
operand bit a place of its own in `W[31:1]`, and `serialize` loses nothing; under SOURCE_LITERAL `ssm[1]` is lost. -/
def Obligations.EveryOperandBitReachesTheBuffer : Prop :=
  (∀ (m : ParityMask) (pol : Policy) (label : Label) (sdi : Sdi) (data : Data) (ssm : Ssm) (w : Word32),
    w = encodeWord ⟨.full, m⟩ label sdi data ssm pol →
    (∀ i < 8, w.getLsbD (31 - i) = label.getLsbD i) ∧ (∀ i < 2, w.getLsbD (22 + i) = sdi.getLsbD i) ∧
    (∀ i < 19, w.getLsbD (3 + i) = data.getLsbD i) ∧ (∀ i < 2, w.getLsbD (1 + i) = ssm.getLsbD i)) ∧
  (∀ (label label' : Label) (sdi sdi' : Sdi) (data data' : Data) (ssm ssm' : Ssm),
    pack .full label sdi data ssm = pack .full label' sdi' data' ssm' → label = label' ∧ sdi = sdi' ∧ data = data' ∧ ssm = ssm') ∧
  (∀ w w' : Word32, serialize w = serialize w' → w = w') ∧
  (∀ (m : ParityMask) (pol : Policy) (label label' : Label) (sdi sdi' : Sdi) (data data' : Data) (ssm ssm' : Ssm),
    (label, sdi, data, ssm) ≠ (label', sdi', data', ssm') →
    serialize (encodeWord ⟨.full, m⟩ label sdi data ssm pol) ≠ serialize (encodeWord ⟨.full, m⟩ label' sdi' data' ssm' pol)) ∧
  (∀ (m : ParityMask) (pol : Policy) (label : Label) (sdi : Sdi) (data : Data) (ssm ssm' : Ssm), ssm.getLsbD 0 = ssm'.getLsbD 0 →
    encodeWord ⟨.sourceLiteral, m⟩ label sdi data ssm pol = encodeWord ⟨.sourceLiteral, m⟩ label sdi data ssm' pol)

/-! ### The commands -/

/-- R194: NOP changes no register; at its edge the sequencer and the shifter still step; it is accepted only when the block is ready;
0x01 to 0x0F are illegal. -/
def Obligations.NopChangesNothing : Prop :=
  (∀ s : State, exec .nop s = .next s) ∧
  (∀ s : State, s.ports.rst = false → s.ports.cmdValid = true → s.ports.cmd = 0x00#8 → edge s = .next (mergeWrites s s)) ∧
  (∀ s : State, s.cmdReady = false → s.accepted = false) ∧
  (∀ w : CmdWord, w.toNat < 16 → decode w = if w = 0x00#8 then some .nop else none) ∧ exec .nop State.reset = .next State.reset

/-- R112: ENC.MAN writes the encoded word and sets WVALID; nothing else changes; the parity bit is `mb` whatever the operands, and two words
of equal operands differ in it only; all-zero operands with mb = 1 give 0x00000001; the rule's example. -/
def Obligations.EncManWritesTheWord : Prop :=
  (∀ (mb : Bit) (s : State), exec (.encMan mb) s = .next { s with
    word := encodeWord s.params s.ports.ops.inLabel s.ports.ops.inSdi s.ports.ops.inData s.ports.ops.inSsm (.manual mb),
    wvalid := true }) ∧
  (∀ (p : Params) (label : Label) (sdi : Sdi) (data : Data) (ssm : Ssm) (mb : Bit),
    (encodeWord p label sdi data ssm (.manual mb)).extractLsb' 0 1 = mb ∧
    (encodeWord p label sdi data ssm (.manual mb)).extractLsb' 1 31 = (encodeWord p label sdi data ssm (.manual 0#1)).extractLsb' 1 31) ∧
  (∀ p : Params, encodeWord p 0 0 0 0 (.manual 1#1) = 0x00000001#32) ∧
  encodeWord Params.default 0x5B#8 0x1#2 0x760FF#19 0x3#2 (.manual 1#1) = 0xDA7B07FF#32 ∧
  serialize 0xDA7B07FF#32 = ⟨0xDA#8, 0xDE#8, 0xE0#8, 0xFF#8⟩ ∧
  ∀ (w : CmdWord) (mb : Bit), decode w = some (.encMan mb) ↔ w = if mb = 1#1 then 0x12#8 else 0x10#8

/-- R113: ENC.ODD writes the encoded word and sets WVALID; nothing else changes; the corner cases and the example with the default
parameters. -/
def Obligations.EncOddWritesTheWord : Prop :=
  (∀ s : State, exec .encOdd s = .next { s with
    word := encodeWord s.params s.ports.ops.inLabel s.ports.ops.inSdi s.ports.ops.inData s.ports.ops.inSsm .oddAuto,
    wvalid := true }) ∧
  encodeWord Params.default 0 0 0 0 .oddAuto = 0x00000001#32 ∧
  encodeWord Params.default 0xFF#8 0x3#2 0x7FFFF#19 0x3#2 .oddAuto = 0xFFFFFFFE#32 ∧
  encodeWord Params.default 0x5B#8 0x1#2 0x760FF#19 0x3#2 .oddAuto = 0xDA7B07FE#32 ∧
  serialize 0xDA7B07FE#32 = ⟨0xDA#8, 0xDE#8, 0xE0#8, 0x7F#8⟩ ∧ decode 0x14#8 = some .encOdd ∧ decode 0x16#8 = none ∧
  (∀ (label : Label) (sdi : Sdi) (data : Data) (ssm : Ssm),
    popcount (encodeWord Params.default label sdi data ssm .oddAuto) % 2 = 1)

/-- R114: ENC.EVEN writes the encoded word and sets WVALID; nothing else changes; for every input it differs from ENC.ODD exactly in
`W[0]`; the corner cases and the example with the default parameters. -/
def Obligations.EncEvenWritesTheWord : Prop :=
  (∀ s : State, exec .encEven s = .next { s with
    word := encodeWord s.params s.ports.ops.inLabel s.ports.ops.inSdi s.ports.ops.inData s.ports.ops.inSsm .evenAuto,
    wvalid := true }) ∧
  encodeWord Params.default 0 0 0 0 .evenAuto = 0x00000000#32 ∧
  encodeWord Params.default 0xFF#8 0x3#2 0x7FFFF#19 0x3#2 .evenAuto = 0xFFFFFFFF#32 ∧
  encodeWord Params.default 0x5B#8 0x1#2 0x760FF#19 0x3#2 .evenAuto = 0xDA7B07FF#32 ∧
  serialize 0xDA7B07FF#32 = ⟨0xDA#8, 0xDE#8, 0xE0#8, 0xFF#8⟩ ∧ decode 0x18#8 = some .encEven ∧ decode 0x1A#8 = none ∧
  (∀ (p : Params) (label : Label) (sdi : Sdi) (data : Data) (ssm : Ssm),
    encodeWord p label sdi data ssm .evenAuto ^^^ encodeWord p label sdi data ssm .oddAuto = 1#32)

/-- R119: an ENC command's word depends on the command, the operands and the machine's parameters alone. -/
def Obligations.EncodingIsDeterministic : Prop :=
  ∀ (s s' : State) (i : Instr), IsEncInstr i → s.params = s'.params →
    s.ports.ops.inLabel = s'.ports.ops.inLabel → s.ports.ops.inSdi = s'.ports.ops.inSdi →
    s.ports.ops.inData = s'.ports.ops.inData → s.ports.ops.inSsm = s'.ports.ops.inSsm →
    ∃ t t', exec i s = .next t ∧ exec i s' = .next t' ∧ t.word = t'.word

/-- R155: INIT writes DIV and INITD, and nothing else, when INITD is 0; a second one raises E_REINIT and leaves DIV (R213); every divisor
is legal; no output but `initd` changes while no byte shifts; no command is accepted during a frame. -/
def Obligations.InitConfiguresOnce : Prop :=
  (∀ s : State, s.initd = false → exec .init s = .next { s with div := s.ports.ops.inDiv, initd := true }) ∧
  (∀ s : State, s.initd = true → exec .init s = .next { s with fault := 2#3 }) ∧
  (∀ s t : State, s.initd = false → s.act = false → exec .init s = .next t →
    t.halfPeriod = s.ports.ops.inDiv.toNat + 1 ∧ t.outputs = { s.outputs with initd := true }) ∧
  (∀ s : State, s.busy = true → s.accepted = false) ∧ decode 0x20#8 = some .init

/-- XMIT.E's normal effect (41_transmitter.md section 4): the word's buffer, the index, the flag and the sequencer state, nothing else. -/
def Obligations.XmitEStartsTheFrame : Prop :=
  ∀ s : State, s.initd = true → s.wvalid = true →
    exec .xmitE s = .next { s with
      txbuf := ⟨s.word.extractLsb' 24 8, rev8 (s.word.extractLsb' 16 8), rev8 (s.word.extractLsb' 8 8), rev8 (s.word.extractLsb' 0 8)⟩,
      idx := 0, txc := false, seq := .load }

/-- XMIT.P's normal effect (41_transmitter.md section 4): the port's bytes as given, the index, the flag and the sequencer state, nothing
else; WVALID is not read. -/
def Obligations.XmitPStartsTheFrame : Prop :=
  ∀ s : State, s.initd = true →
    exec .xmitP s = .next { s with
      txbuf := ⟨s.ports.ops.inTx.extractLsb' 24 8, s.ports.ops.inTx.extractLsb' 16 8, s.ports.ops.inTx.extractLsb' 8 8,
        s.ports.ops.inTx.extractLsb' 0 8⟩,
      idx := 0, txc := false, seq := .load }

/-- R214 and R215: when an XMIT raises E_NOINIT and when XMIT.E raises E_NOWORD; no frame starts and nothing but FAULT is written; XMIT.P
never raises E_NOWORD. -/
def Obligations.XmitFaults : Prop :=
  (∀ s : State, s.initd = false → exec .xmitE s = .next { s with fault := 3#3 }) ∧
  (∀ s : State, s.initd = false → exec .xmitP s = .next { s with fault := 3#3 }) ∧
  (∀ s : State, s.initd = true → s.wvalid = false → exec .xmitE s = .next { s with fault := 4#3 }) ∧
  (∀ s t : State, s.fault = 0 → exec .xmitP s = .next t → t.fault ≠ 4#3)

/-- R210: a fault is raised only at the acceptance edge of a command and only from FAULT = 0, its code is 1 to 4, the command writes no
other register, and the sequencer and the shifter still step at that edge. -/
def Obligations.RaisingAFaultWritesOnlyFault : Prop :=
  ∀ s c : State, commandUnit s = .next c → c.fault ≠ s.fault →
    s.accepted = true ∧ s.fault = 0 ∧ 1 ≤ c.fault.toNat ∧ c.fault.toNat ≤ 4 ∧ c = { s with fault := c.fault } ∧
    edge s = .next (mergeWrites s c)

/-- R216: one fault at most a command, in the order illegal word, no INIT, no word; only INIT raises E_REINIT; reset wins over a fault. -/
def Obligations.FaultPriority : Prop :=
  ∀ s : State,
    (s.accepted = true →
      (decode s.ports.cmd = none → commandUnit s = .next { s with fault := 1#3 }) ∧
      (decode s.ports.cmd = some .xmitE → s.initd = false → commandUnit s = .next { s with fault := 3#3 }) ∧
      (decode s.ports.cmd = some .xmitP → s.initd = false → commandUnit s = .next { s with fault := 3#3 }) ∧
      (decode s.ports.cmd = some .xmitE → s.initd = true → s.wvalid = false → commandUnit s = .next { s with fault := 4#3 }) ∧
      (∀ c, commandUnit s = .next c → c.fault = 2#3 → decode s.ports.cmd = some .init ∧ s.initd = true)) ∧
    (s.ports.rst = true → s.accepted = false ∧ ∃ t, edge s = .next t ∧ t.fault = 0)

/-- R78's last sentence: a command's effect on the registers depends only on the operand ports it reads. -/
def Obligations.CommandsReadOnlyTheirOperands : Prop :=
  ∀ (s : State) (p q : Ports),
    ((p.ops.inLabel = q.ops.inLabel ∧ p.ops.inSdi = q.ops.inSdi ∧ p.ops.inData = q.ops.inData ∧ p.ops.inSsm = q.ops.inSsm) →
      ∀ (i : Instr) (t : State), IsEncInstr i → exec i (s.drivenBy p) = .next t → exec i (s.drivenBy q) = .next (t.drivenBy q)) ∧
    (p.ops.inDiv = q.ops.inDiv →
      ∀ t : State, exec .init (s.drivenBy p) = .next t → exec .init (s.drivenBy q) = .next (t.drivenBy q)) ∧
    (p.ops.inTx = q.ops.inTx →
      ∀ t : State, exec .xmitP (s.drivenBy p) = .next t → exec .xmitP (s.drivenBy q) = .next (t.drivenBy q)) ∧
    (∀ (i : Instr) (t : State), i = .nop ∨ i = .xmitE →
      exec i (s.drivenBy p) = .next t → exec i (s.drivenBy q) = .next (t.drivenBy q))

/-! ### Acceptance and the edge -/

/-- R190 and R191: when a command is accepted, when the block is ready, and that the command unit writes nothing otherwise. -/
def Obligations.AcceptanceRule : Prop :=
  ∀ s : State,
    (s.cmdReady = true ↔ s.seq = .idle ∧ s.fault = 0) ∧
    (s.accepted = true ↔ s.ports.rst = false ∧ s.ports.cmdValid = true ∧ s.cmdReady = true) ∧
    (s.accepted = true → ∀ i, decode s.ports.cmd = some i → commandUnit s = exec i s) ∧
    (s.accepted = false → commandUnit s = .next s)

/-- 42_command.md section 2: where the presented word decodes to an instruction and is accepted, the step is that instruction's `exec` with
the sequencer's and the shifter's writes of the same edge merged in (EdgeRunsTheThreeParts opens that), and then the host's next port values.
That last clause, `driver`, is the model's choice, not a rule's: the host of 30_encoding.md section 1 is held in State (log 5). -/
def Obligations.StepRunsTheDecodedInstruction : Prop :=
  ∀ (s : State) (i : Instr), s.accepted = true → decode s.ports.cmd = some i → i.wf = true →
    step s = match exec i s with
      | .next c => .next (driver s (mergeWrites s c))
      | .fault r => .fault r
      | .refused r => .refused r

/-- R197: at a reset edge every register takes its reset value; at any other edge an accepted word is dispatched (R193), else the command unit
changes nothing, and the sequencer's case and the shifter's case, each evaluated on the pre-edge state `s`, add their writes to what the
command unit left. The sequencer's cases are written out; the shifter's are those of ShifterCases. In states that meet the invariant, where
R198 lets no register be written twice. -/
def Obligations.EdgeRunsTheThreeParts : Prop :=
  (∀ s : State, s.ports.rst = true → edge s = .next s.resetEdge) ∧
  (∀ s : State, commandUnit s = if s.ports.rst = false ∧ s.ports.cmdValid = true ∧ s.cmdReady = true then
    (match decode s.ports.cmd with
      | some i => exec i s
      | none => .next { s with fault := 1#3 })
    else .next s) ∧
  (∀ s c : State,
    (s.seq = .idle → sequencer s c = c) ∧
    (s.seq = .load → s.dre = false → sequencer s c = c) ∧
    (∀ b, s.seq = .load → s.dre = true → s.txbuf.byteAt s.idx.toNat = some b → sequencer s c =
      { c with tdr := b, dre := false, idx := s.idx + 1#3, seq := if s.idx = 3#3 then .waitc else c.seq }) ∧
    (s.Inv → s.seq = .load → ∃ b, s.txbuf.byteAt s.idx.toNat = some b) ∧
    (s.seq = .waitc → sequencer s c = if s.txc = true then { c with seq := .idle } else c)) ∧
  (∀ s c : State, s.Inv → s.ports.rst = false → commandUnit s = .next c → edge s = .next (shifter s (sequencer s c)))

/-- 42_command.md section 2 in a state that meets the invariant: an accepted command's own writes are all that the edge does, because the
sequencer and the shifter are idle then. -/
def Obligations.AcceptedCommandIsTheWholeEdge : Prop :=
  ∀ (s c : State), s.Inv → s.accepted = true → commandUnit s = .next c → edge s = .next c

/-- R196: a command presented while the block is not ready has no effect and is not remembered: the registers go the same way whatever is
presented; the host's program keeps presenting it. -/
def Obligations.UnreadyCommandHasNoEffect : Prop :=
  (∀ (s t : State) (p q : Ports), s.cmdReady = false → p.rst = false → q.rst = false →
    edge (s.drivenBy p) = .next t → edge (s.drivenBy q) = .next (t.drivenBy q)) ∧
  (∀ s t : State, s.phase = .hold → s.accepted = false → step s = .next t →
    t.ports = s.ports ∧ t.phase = .hold ∧ t.program = s.program)

/-- R192: `cmd` and the operand ports are read only at an acceptance edge. -/
def Obligations.OperandsSampledOnlyAtAcceptance : Prop :=
  ∀ (s t : State) (p q : Ports), p.rst = q.rst → (s.drivenBy p).accepted = false → (s.drivenBy q).accepted = false →
    edge (s.drivenBy p) = .next t → edge (s.drivenBy q) = .next (t.drivenBy q)

/-- No state stops the machine (60_exceptions.md sections 1 and 2: a fault is a register's value, and the block goes on stepping). -/
def Obligations.StepAlwaysAnswersNext : Prop := ∀ s : State, ∃ t, step s = .next t

/-- R240: at an edge with `rst = 1` every register takes its reset value, from every state, and holding reset keeps the state. -/
def Obligations.ResetFromEveryState : Prop :=
  ∀ s : State, s.ports.rst = true → s.accepted = false ∧ ∃ t, edge s = .next t ∧
    t.div = 0 ∧ t.initd = false ∧ t.word = 0x00000000#32 ∧ t.wvalid = false ∧ t.txbuf = ⟨0x00#8, 0x00#8, 0x00#8, 0x00#8⟩ ∧
    t.seq = .idle ∧ t.idx = 0 ∧ t.tdr = 0x00#8 ∧ t.dre = true ∧ t.tsr = 0x00#8 ∧ t.act = false ∧ t.bitn = 0 ∧ t.ph = 0 ∧
    t.txc = false ∧ t.fault = 0 ∧ edge t = .next t

/-- R242: every output port in the reset state, which stays until the next accepted command; while `rst` is still 1, `cmd_ready` reads 1
but no command is accepted. The idle level of `sdo` is the open parameter, whatever it is. -/
def Obligations.OutputsAfterReset : Prop :=
  ∀ s : State, s.AtReset →
    s.outputs = {
      cmdReady := true, busy := false, fault := 0, initd := false, wvalid := false, word := 0x00000000#32,
      buf := 0x00000000#32, dre := true, txc := false, sck := false, sdo := Config.sdoIdle } ∧
    (s.accepted = false → edge s = .next s) ∧ (s.ports.rst = true → s.cmdReady = true ∧ s.accepted = false)

/-! ### The sequencer, the shifter and the serial outputs -/

/-- R165: the shifter's six cases, exclusive and covering every state, and what each writes; and at every edge without reset, in states that
meet the invariant, exactly one applies, tested on the pre-edge state `s`, over what the command unit and the sequencer left in `m`. -/
def Obligations.ShifterCases : Prop :=
  (∀ s c : State, shifter s c =
    if s.act = false ∧ s.dre = false then { c with tsr := s.tdr, dre := true, act := true, bitn := 0#3, ph := 0#17 }
    else if s.act = false ∧ s.dre = true then c
    else if s.ph.toNat < 2 * s.halfPeriod - 1 then { c with ph := s.ph + 1#17 }
    else if s.bitn.toNat < 7 then { c with bitn := s.bitn + 1#3, tsr := s.tsr <<< 1, ph := 0#17 }
    else if s.dre = false then { c with tsr := s.tdr, dre := true, bitn := 0#3, ph := 0#17 }
    else { c with act := false, txc := true, bitn := 0#3, ph := 0#17 }) ∧
  (∀ s c m : State, s.Inv → s.ports.rst = false → commandUnit s = .next c → m = sequencer s c → edge s = .next (
    if s.act = false ∧ s.dre = false then { m with tsr := s.tdr, dre := true, act := true, bitn := 0#3, ph := 0#17 }
    else if s.act = false ∧ s.dre = true then m
    else if s.ph.toNat < 2 * s.halfPeriod - 1 then { m with ph := s.ph + 1#17 }
    else if s.bitn.toNat < 7 then { m with bitn := s.bitn + 1#3, tsr := s.tsr <<< 1, ph := 0#17 }
    else if s.dre = false then { m with tsr := s.tdr, dre := true, bitn := 0#3, ph := 0#17 }
    else { m with act := false, txc := true, bitn := 0#3, ph := 0#17 }))

/-- R152, R153, R154 at every edge without reset: what the sequencer does in LOAD, in WAITC and in IDLE. The fourth byte's index is
premised at most 3 in LOAD, which the invariant gives. -/
def Obligations.SequencerAtEveryEdge : Prop :=
  ∀ s t : State, s.ports.rst = false → edge s = .next t →
    (s.seq = .load → s.dre = true → s.idx.toNat ≤ 3 →
      some t.tdr = s.txbuf.byteAt s.idx.toNat ∧ t.dre = false ∧ t.idx = s.idx + 1#3 ∧
      t.seq = (if s.idx = 3 then .waitc else .load)) ∧
    (s.seq = .load → s.dre = false → t.tdr = s.tdr ∧ t.idx = s.idx ∧ t.seq = .load) ∧
    (s.seq = .waitc → s.txc = true → t.seq = .idle ∧ t.tdr = s.tdr ∧ t.idx = s.idx) ∧
    (s.seq = .waitc → s.txc = false → t.seq = .waitc ∧ t.tdr = s.tdr ∧ t.idx = s.idx) ∧
    (s.seq = .idle → t.tdr = s.tdr ∧ (t.seq = .idle ∧ t.idx = s.idx ∨ FrameStarts s t))

/-- R142 and R143: when `sck` is high, what `sdo` shows, and that `sdo` changes only where TSR is loaded or shifted or ACT changes, at an
edge after which `sck` is low. -/
def Obligations.SerialClockAndData : Prop :=
  (∀ s : State, s.sck = true ↔ s.act = true ∧ s.halfPeriod ≤ s.ph.toNat) ∧
  (∀ s : State, (s.act = true → s.sdo = s.tsr.getLsbD 7) ∧ (s.act = false → s.sdo = Config.sdoIdle)) ∧
  (∀ s t : State, edge s = .next t → t.sdo ≠ s.sdo → t.sck = false ∧ (t.tsr ≠ s.tsr ∨ t.act ≠ s.act))

/-- R198: which part writes each register, and that in every reachable state no register is written by two parts at one edge. -/
def Obligations.WritesAreExclusive : Prop :=
  (∀ s c : State, commandUnit s = .next c →
    c.tdr = s.tdr ∧ c.tsr = s.tsr ∧ c.act = s.act ∧ c.bitn = s.bitn ∧ c.ph = s.ph ∧ c.dre = s.dre) ∧
  (∀ s c : State, SameCommandRegisters c (sequencer s c) ∧ (sequencer s c).tsr = c.tsr ∧ (sequencer s c).act = c.act ∧
    (sequencer s c).bitn = c.bitn ∧ (sequencer s c).ph = c.ph ∧ (sequencer s c).txc = c.txc) ∧
  (∀ s c : State, SameCommandRegisters c (shifter s c) ∧ (shifter s c).tdr = c.tdr ∧ (shifter s c).seq = c.seq ∧
    (shifter s c).idx = c.idx) ∧
  (∀ s c : State, (s.dre = false → (sequencer s c).dre = c.dre) ∧ (s.dre = true → (shifter s c).dre = c.dre)) ∧
  (∀ s c : State, (s.seq ≠ .idle → commandUnit s = .next c → c = s) ∧
    (s.seq = .idle → (sequencer s c).seq = c.seq ∧ (sequencer s c).idx = c.idx)) ∧
  (∀ s c : State, Reachable s →
    (s.seq ≠ .idle → commandUnit s = .next c → c.txc = s.txc) ∧ (s.seq = .idle → s.act = false ∧ (shifter s c).txc = c.txc))

/-! ### Invariants -/

/-- The invariant holds wherever every register has its reset value, `State.reset` among them. -/
def Obligations.InvariantAtReset : Prop := (∀ s : State, s.AtReset → s.Inv) ∧ State.reset.Inv

/-- Every step keeps the invariant: R42's seven facts with the facts about loading, from every state that meets them. -/
def Obligations.InvariantKeptByEveryStep : Prop := ∀ s t : State, s.Inv → step s = .next t → t.Inv

/-- R42: the seven facts hold in every state a reset block can reach, under any host. -/
def Obligations.ReachableStatesMeetR42 : Prop := ∀ s : State, Reachable s → s.FactsOfR42

/-- 60_exceptions.md section 1 (codes 5 to 7 are never produced) and 10_state.md section 3 (IDX is 0 to 4): reachable states. -/
def Obligations.ReservedValuesAreNeverReached : Prop := ∀ s : State, Reachable s → s.fault.toNat ≤ 4 ∧ s.idx.toNat ≤ 4

/-- The parameters are no registers: no step changes them (00_scope.md section 3). -/
def Obligations.ParametersNeverChange : Prop := ∀ s t : State, step s = .next t → t.params = s.params

/-! ### Whole-machine rules -/

/-- R218: while FAULT is nonzero no command is accepted, the fault stays, and what the host can inspect keeps its value; in a state that
meets the invariant the serial lines are idle. -/
def Obligations.FaultStopsCommands : Prop :=
  ∀ s : State, s.fault ≠ 0 → s.ports.rst = false → s.cmdReady = false ∧ s.accepted = false ∧
    ∃ t, edge s = .next t ∧ t.fault = s.fault ∧ t.word = s.word ∧ t.outputs.buf = s.outputs.buf ∧ t.initd = s.initd ∧
      t.wvalid = s.wvalid ∧ (s.Inv → s.sck = false ∧ s.sdo = Config.sdoIdle ∧ t.sck = false ∧ t.sdo = Config.sdoIdle)

/-- R27, and what it means for DIV (R26): INITD is set by INIT and cleared by reset alone; DIV is written by the one INIT and by reset
alone. -/
def Obligations.DivisorIsWrittenOnce : Prop :=
  ∀ s t : State, edge s = .next t →
    (s.ports.rst = true → t.initd = false ∧ t.div = 0) ∧
    (s.ports.rst = false → s.initd = true → t.initd = true ∧ t.div = s.div) ∧
    (s.accepted = true → decode s.ports.cmd = some .init → t.initd = true) ∧
    (s.ports.rst = false → (t.initd ≠ s.initd ∨ t.div ≠ s.div) →
      s.accepted = true ∧ decode s.ports.cmd = some .init ∧ s.initd = false ∧ t.initd = true ∧ t.div = s.ports.ops.inDiv)

/-- R29, and what it means for WORD (R28): an ENC command sets WVALID and only it writes WORD; only reset clears WVALID; XMIT.E keeps both,
so a word may be sent again. -/
def Obligations.WordIsWrittenOnlyByEncode : Prop :=
  ∀ s t : State, edge s = .next t →
    (s.ports.rst = true → t.wvalid = false) ∧
    (s.accepted = true → IsEncWord s.ports.cmd → t.wvalid = true) ∧
    (s.ports.rst = false → ¬ (s.accepted = true ∧ IsEncWord s.ports.cmd) → t.word = s.word ∧ t.wvalid = s.wvalid) ∧
    (s.ports.rst = false → s.wvalid = true → t.wvalid = true)

/-- R38 in states that meet the invariant: TXC is set exactly where the last bit ends with no byte waiting, cleared exactly where a frame
starts, and written by nothing else but reset. -/
def Obligations.CompletionFlagRule : Prop :=
  ∀ s t : State, s.Inv → edge s = .next t →
    (s.ports.rst = true → t.txc = false) ∧
    (s.ports.rst = false → s.act = true → s.ph.toNat = 2 * s.halfPeriod - 1 → s.bitn = 7 → s.dre = true → t.txc = true) ∧
    (FrameStarts s t → t.txc = false) ∧
    (s.ports.rst = false → ¬ (s.act = true ∧ s.ph.toNat = 2 * s.halfPeriod - 1 ∧ s.bitn = 7 ∧ s.dre = true) → ¬ FrameStarts s t →
      t.txc = s.txc)

/-- 70_reset_and_hazards.md section 3: while a frame is in progress no command takes effect and its four bytes do not change. -/
def Obligations.BusyFreezesTheCommandRegisters : Prop :=
  ∀ s t : State, s.busy = true → s.ports.rst = false → edge s = .next t → s.accepted = false ∧ SameCommandRegisters s t

/-- R249: an XMIT.E right after an ENC sends the new word, and an XMIT right after INIT sees INITD and the new DIV, with no edge between.
From every state that meets the invariant. -/
def Obligations.EncodeThenTransmitNeedsNoGap : Prop :=
  (∀ (s t : State) (i : Instr) (q : Ports), s.Inv → s.accepted = true → decode s.ports.cmd = some i → IsEncWord s.ports.cmd →
    s.initd = true → edge s = .next t → q.rst = false → q.cmdValid = true → q.cmd = 0x30#8 →
    ∃ u c, exec i s = .next c ∧ FrameStarts (t.drivenBy q) u ∧ u.txbuf = serialize c.word) ∧
  (∀ (s t : State) (q : Ports), s.Inv → s.accepted = true → s.ports.cmd = 0x20#8 → s.initd = false → edge s = .next t →
    q.rst = false → q.cmdValid = true →
    (q.cmd = 0x38#8 → ∃ u, FrameStarts (t.drivenBy q) u ∧ u.div = s.ports.ops.inDiv ∧ u.initd = true ∧
      u.txbuf = Frame.ofWord q.ops.inTx) ∧
    (q.cmd = 0x30#8 → s.wvalid = true → ∃ u, FrameStarts (t.drivenBy q) u ∧ u.div = s.ports.ops.inDiv ∧ u.initd = true ∧
      u.txbuf = serialize s.word))

/-- R81, how a host line starts and finishes. It finishes: a command at its acceptance edge, an XMIT that starts a frame at the edge where
`busy` falls, a line of n edges at the n-th; then the next line starts. It starts: a command is presented with its operands, `WAIT n` has
`cmd_valid = 0` for n edges, `RESET` has `rst = 1` for one edge; the first line starts at the first edge. No edge of the block changes the
ports, so a line keeps what it drives. The model's choices, not R81's: the host is held in State, and it has a line of its own that drives any
ports (log 5); while it waits for a frame to end every port is 0, and after its last line it presents nothing (logs 5 and 6); `WAIT 0` covers
no edge (log 13). -/
def Obligations.HostLinesFinish : Prop :=
  (∀ s t : State, edge s = .next t →
    t.ports = s.ports ∧ t.phase = s.phase ∧ t.program = s.program ∧
    (s.phase = .hold → s.accepted = true → t.busy = false → step s = .next t.startNextLine) ∧
    (s.phase = .hold → s.accepted = true → t.busy = true → step s = .next { t with ports := Ports.idle, phase := .frame }) ∧
    (s.phase = .hold → s.accepted = false → step s = .next t) ∧
    (s.phase = .frame → t.busy = false → step s = .next t.startNextLine) ∧
    (s.phase = .frame → t.busy = true → step s = .next t) ∧
    (∀ n, s.phase = .edges (n + 2) → step s = .next { t with phase := .edges (n + 1) }) ∧
    (s.phase = .edges 1 → step s = .next t.startNextLine) ∧
    (s.phase = .done → step s = .next t)) ∧
  (∀ (s u : State) (rest : List HostLine), s.startNextLine = u →
    (∀ w ops, s.program = .present w ops :: rest →
      u = { s with ports := { rst := false, cmdValid := true, cmd := w, ops := ops }, phase := .hold, program := rest }) ∧
    (∀ n, s.program = .wait (n + 1) :: rest → u = { s with ports := u.ports, phase := .edges (n + 1), program := rest } ∧
      u.ports.cmdValid = false ∧ u.ports.rst = false) ∧
    (s.program = .reset :: rest → u = { s with ports := u.ports, phase := .edges 1, program := rest } ∧ u.ports.rst = true) ∧
    (∀ p, s.program = .drive p :: rest → u = { s with ports := p, phase := .edges 1, program := rest }) ∧
    (s.program = .wait 0 :: rest → u = { s with program := rest }.startNextLine) ∧
    (s.program = [] → u = { s with ports := u.ports, phase := .done } ∧ u.ports.cmdValid = false ∧ u.ports.rst = false)) ∧
  (∀ (s : State) (lines : List HostLine), s.loadProgram lines = { s with program := lines }.startNextLine)

/-! ### A frame -/

/-- R160: the timing table of a frame, from any state that meets the invariant and under any host that does not reset: `ps` holds the port
values at edges 1, 2, … after the acceptance edge, so `t` is the state after edge `ps.length`. -/
def Obligations.FrameTiming : Prop :=
  ∀ (s t0 : State) (ps : List Ports) (k H : Nat), s.Inv → FrameStarts s t0 → (∀ p ∈ ps, p.rst = false) →
    k = ps.length → H = t0.halfPeriod → k ≤ 3 + 64 * H →
    ∃ t, runPorts ps t0 = .next t ∧
      t.txbuf = t0.txbuf ∧ (k = 0 → t.txc = false ∧ t.seq = .load) ∧
      (k = 1 → t.tdr = t0.txbuf.b0 ∧ t.dre = false) ∧
      (k = 2 → t.tsr = t0.txbuf.b0 ∧ t.act = true ∧ t.dre = true) ∧
      (k = 3 → t.tdr = t0.txbuf.b1 ∧ t.dre = false) ∧
      (k = 2 + 16 * H → t.tsr = t0.txbuf.b1 ∧ t.bitn = 0 ∧ t.ph = 0 ∧ t.act = true) ∧
      (k = 3 + 16 * H → t.tdr = t0.txbuf.b2 ∧ t.dre = false) ∧
      (k = 2 + 32 * H → t.tsr = t0.txbuf.b2 ∧ t.bitn = 0 ∧ t.ph = 0 ∧ t.act = true) ∧
      (k = 3 + 32 * H → t.tdr = t0.txbuf.b3 ∧ t.dre = false ∧ t.seq = .waitc) ∧
      (k = 2 + 48 * H → t.tsr = t0.txbuf.b3 ∧ t.bitn = 0 ∧ t.ph = 0 ∧ t.act = true) ∧
      (t.sck = true ↔ ∃ n < 32, 2 + 2 * H * n + H ≤ k ∧ k < 2 + 2 * H * (n + 1)) ∧
      (t.txc = true ↔ 2 + 64 * H ≤ k) ∧ (2 + 64 * H ≤ k → t.act = false) ∧
      (t.busy = true ↔ k < 3 + 64 * H) ∧ (t.cmdReady = true ↔ k = 3 + 64 * H)

/-- R159 and R58: over a frame `sck` rises exactly 32 times, and at the n-th rise `sdo` is bit 7 - (n mod 8) of byte n div 8; for XMIT.E of a
word W the order of W's bits, with the parity bit 25th; the label of an encoded word leaves bit 0 first. -/
def Obligations.WireSequence : Prop :=
  ∀ (s t0 : State) (ps : List Ports), s.Inv → FrameStarts s t0 → (∀ p ∈ ps, p.rst = false) →
    ps.length = 3 + 64 * t0.halfPeriod →
    (wireBits ps t0).length = 32 ∧
    (∀ n < 32, ∃ b, t0.txbuf.byteAt (n / 8) = some b ∧ (wireBits ps t0)[n]? = some (b.getLsbD (7 - n % 8))) ∧
    (s.ports.cmd = 0x30#8 →
      (∀ n < 32, (wireBits ps t0)[n]? = some (s.word.getLsbD (wireIndex n))) ∧
      (wireBits ps t0)[24]? = some (s.word.getLsbD 0) ∧
      ∀ (p : Params) (label : Label) (sdi : Sdi) (data : Data) (ssm : Ssm) (pol : Policy),
        s.word = encodeWord p label sdi data ssm pol → ∀ n < 8, (wireBits ps t0)[n]? = some (label.getLsbD n))
end

