-- ==== Sys2Proof/Laws/State.lean ====
section
/-! SUPPORT. What each named update of the state leaves in each field: one lemma a field, so that no proof unfolds a record update. -/

namespace Sys2Proof.Machine

-- raise
@[simp] theorem State.raise_div (s : State) (c : FaultCode) : (s.raise c).div = s.div := rfl
@[simp] theorem State.raise_initd (s : State) (c : FaultCode) : (s.raise c).initd = s.initd := rfl
@[simp] theorem State.raise_word (s : State) (c : FaultCode) : (s.raise c).word = s.word := rfl
@[simp] theorem State.raise_wvalid (s : State) (c : FaultCode) : (s.raise c).wvalid = s.wvalid := rfl
@[simp] theorem State.raise_txbuf (s : State) (c : FaultCode) : (s.raise c).txbuf = s.txbuf := rfl
@[simp] theorem State.raise_seq (s : State) (c : FaultCode) : (s.raise c).seq = s.seq := rfl
@[simp] theorem State.raise_idx (s : State) (c : FaultCode) : (s.raise c).idx = s.idx := rfl
@[simp] theorem State.raise_tdr (s : State) (c : FaultCode) : (s.raise c).tdr = s.tdr := rfl
@[simp] theorem State.raise_dre (s : State) (c : FaultCode) : (s.raise c).dre = s.dre := rfl
@[simp] theorem State.raise_tsr (s : State) (c : FaultCode) : (s.raise c).tsr = s.tsr := rfl
@[simp] theorem State.raise_act (s : State) (c : FaultCode) : (s.raise c).act = s.act := rfl
@[simp] theorem State.raise_bitn (s : State) (c : FaultCode) : (s.raise c).bitn = s.bitn := rfl
@[simp] theorem State.raise_ph (s : State) (c : FaultCode) : (s.raise c).ph = s.ph := rfl
@[simp] theorem State.raise_txc (s : State) (c : FaultCode) : (s.raise c).txc = s.txc := rfl
@[simp] theorem State.raise_fault (s : State) (c : FaultCode) : (s.raise c).fault = c.code := rfl
@[simp] theorem State.raise_ports (s : State) (c : FaultCode) : (s.raise c).ports = s.ports := rfl
@[simp] theorem State.raise_phase (s : State) (c : FaultCode) : (s.raise c).phase = s.phase := rfl
@[simp] theorem State.raise_program (s : State) (c : FaultCode) : (s.raise c).program = s.program := rfl
@[simp] theorem State.raise_params (s : State) (c : FaultCode) : (s.raise c).params = s.params := rfl
@[simp] theorem State.raise_draws (s : State) (c : FaultCode) : (s.raise c).draws = s.draws := rfl

-- writeWord
@[simp] theorem State.writeWord_div (s : State) (w : Word32) : (s.writeWord w).div = s.div := rfl
@[simp] theorem State.writeWord_initd (s : State) (w : Word32) : (s.writeWord w).initd = s.initd := rfl
@[simp] theorem State.writeWord_word (s : State) (w : Word32) : (s.writeWord w).word = w := rfl
@[simp] theorem State.writeWord_wvalid (s : State) (w : Word32) : (s.writeWord w).wvalid = true := rfl
@[simp] theorem State.writeWord_txbuf (s : State) (w : Word32) : (s.writeWord w).txbuf = s.txbuf := rfl
@[simp] theorem State.writeWord_seq (s : State) (w : Word32) : (s.writeWord w).seq = s.seq := rfl
@[simp] theorem State.writeWord_idx (s : State) (w : Word32) : (s.writeWord w).idx = s.idx := rfl
@[simp] theorem State.writeWord_tdr (s : State) (w : Word32) : (s.writeWord w).tdr = s.tdr := rfl
@[simp] theorem State.writeWord_dre (s : State) (w : Word32) : (s.writeWord w).dre = s.dre := rfl
@[simp] theorem State.writeWord_tsr (s : State) (w : Word32) : (s.writeWord w).tsr = s.tsr := rfl
@[simp] theorem State.writeWord_act (s : State) (w : Word32) : (s.writeWord w).act = s.act := rfl
@[simp] theorem State.writeWord_bitn (s : State) (w : Word32) : (s.writeWord w).bitn = s.bitn := rfl
@[simp] theorem State.writeWord_ph (s : State) (w : Word32) : (s.writeWord w).ph = s.ph := rfl
@[simp] theorem State.writeWord_txc (s : State) (w : Word32) : (s.writeWord w).txc = s.txc := rfl
@[simp] theorem State.writeWord_fault (s : State) (w : Word32) : (s.writeWord w).fault = s.fault := rfl
@[simp] theorem State.writeWord_ports (s : State) (w : Word32) : (s.writeWord w).ports = s.ports := rfl
@[simp] theorem State.writeWord_phase (s : State) (w : Word32) : (s.writeWord w).phase = s.phase := rfl
@[simp] theorem State.writeWord_program (s : State) (w : Word32) : (s.writeWord w).program = s.program := rfl
@[simp] theorem State.writeWord_params (s : State) (w : Word32) : (s.writeWord w).params = s.params := rfl
@[simp] theorem State.writeWord_draws (s : State) (w : Word32) : (s.writeWord w).draws = s.draws := rfl

-- configure
@[simp] theorem State.configure_div (s : State) (d : Divisor) : (s.configure d).div = d := rfl
@[simp] theorem State.configure_initd (s : State) (d : Divisor) : (s.configure d).initd = true := rfl
@[simp] theorem State.configure_word (s : State) (d : Divisor) : (s.configure d).word = s.word := rfl
@[simp] theorem State.configure_wvalid (s : State) (d : Divisor) : (s.configure d).wvalid = s.wvalid := rfl
@[simp] theorem State.configure_txbuf (s : State) (d : Divisor) : (s.configure d).txbuf = s.txbuf := rfl
@[simp] theorem State.configure_seq (s : State) (d : Divisor) : (s.configure d).seq = s.seq := rfl
@[simp] theorem State.configure_idx (s : State) (d : Divisor) : (s.configure d).idx = s.idx := rfl
@[simp] theorem State.configure_tdr (s : State) (d : Divisor) : (s.configure d).tdr = s.tdr := rfl
@[simp] theorem State.configure_dre (s : State) (d : Divisor) : (s.configure d).dre = s.dre := rfl
@[simp] theorem State.configure_tsr (s : State) (d : Divisor) : (s.configure d).tsr = s.tsr := rfl
@[simp] theorem State.configure_act (s : State) (d : Divisor) : (s.configure d).act = s.act := rfl
@[simp] theorem State.configure_bitn (s : State) (d : Divisor) : (s.configure d).bitn = s.bitn := rfl
@[simp] theorem State.configure_ph (s : State) (d : Divisor) : (s.configure d).ph = s.ph := rfl
@[simp] theorem State.configure_txc (s : State) (d : Divisor) : (s.configure d).txc = s.txc := rfl
@[simp] theorem State.configure_fault (s : State) (d : Divisor) : (s.configure d).fault = s.fault := rfl
@[simp] theorem State.configure_ports (s : State) (d : Divisor) : (s.configure d).ports = s.ports := rfl
@[simp] theorem State.configure_phase (s : State) (d : Divisor) : (s.configure d).phase = s.phase := rfl
@[simp] theorem State.configure_program (s : State) (d : Divisor) : (s.configure d).program = s.program := rfl
@[simp] theorem State.configure_params (s : State) (d : Divisor) : (s.configure d).params = s.params := rfl
@[simp] theorem State.configure_draws (s : State) (d : Divisor) : (s.configure d).draws = s.draws := rfl

-- startFrame
@[simp] theorem State.startFrame_div (s : State) (f : Frame) : (s.startFrame f).div = s.div := rfl
@[simp] theorem State.startFrame_initd (s : State) (f : Frame) : (s.startFrame f).initd = s.initd := rfl
@[simp] theorem State.startFrame_word (s : State) (f : Frame) : (s.startFrame f).word = s.word := rfl
@[simp] theorem State.startFrame_wvalid (s : State) (f : Frame) : (s.startFrame f).wvalid = s.wvalid := rfl
@[simp] theorem State.startFrame_txbuf (s : State) (f : Frame) : (s.startFrame f).txbuf = f := rfl
@[simp] theorem State.startFrame_seq (s : State) (f : Frame) : (s.startFrame f).seq = Seq.load := rfl
@[simp] theorem State.startFrame_idx (s : State) (f : Frame) : (s.startFrame f).idx = 0 := rfl
@[simp] theorem State.startFrame_tdr (s : State) (f : Frame) : (s.startFrame f).tdr = s.tdr := rfl
@[simp] theorem State.startFrame_dre (s : State) (f : Frame) : (s.startFrame f).dre = s.dre := rfl
@[simp] theorem State.startFrame_tsr (s : State) (f : Frame) : (s.startFrame f).tsr = s.tsr := rfl
@[simp] theorem State.startFrame_act (s : State) (f : Frame) : (s.startFrame f).act = s.act := rfl
@[simp] theorem State.startFrame_bitn (s : State) (f : Frame) : (s.startFrame f).bitn = s.bitn := rfl
@[simp] theorem State.startFrame_ph (s : State) (f : Frame) : (s.startFrame f).ph = s.ph := rfl
@[simp] theorem State.startFrame_txc (s : State) (f : Frame) : (s.startFrame f).txc = false := rfl
@[simp] theorem State.startFrame_fault (s : State) (f : Frame) : (s.startFrame f).fault = s.fault := rfl
@[simp] theorem State.startFrame_ports (s : State) (f : Frame) : (s.startFrame f).ports = s.ports := rfl
@[simp] theorem State.startFrame_phase (s : State) (f : Frame) : (s.startFrame f).phase = s.phase := rfl
@[simp] theorem State.startFrame_program (s : State) (f : Frame) : (s.startFrame f).program = s.program := rfl
@[simp] theorem State.startFrame_params (s : State) (f : Frame) : (s.startFrame f).params = s.params := rfl
@[simp] theorem State.startFrame_draws (s : State) (f : Frame) : (s.startFrame f).draws = s.draws := rfl

-- drivenBy
@[simp] theorem State.drivenBy_div (s : State) (p : Ports) : (s.drivenBy p).div = s.div := rfl
@[simp] theorem State.drivenBy_initd (s : State) (p : Ports) : (s.drivenBy p).initd = s.initd := rfl
@[simp] theorem State.drivenBy_word (s : State) (p : Ports) : (s.drivenBy p).word = s.word := rfl
@[simp] theorem State.drivenBy_wvalid (s : State) (p : Ports) : (s.drivenBy p).wvalid = s.wvalid := rfl
@[simp] theorem State.drivenBy_txbuf (s : State) (p : Ports) : (s.drivenBy p).txbuf = s.txbuf := rfl
@[simp] theorem State.drivenBy_seq (s : State) (p : Ports) : (s.drivenBy p).seq = s.seq := rfl
@[simp] theorem State.drivenBy_idx (s : State) (p : Ports) : (s.drivenBy p).idx = s.idx := rfl
@[simp] theorem State.drivenBy_tdr (s : State) (p : Ports) : (s.drivenBy p).tdr = s.tdr := rfl
@[simp] theorem State.drivenBy_dre (s : State) (p : Ports) : (s.drivenBy p).dre = s.dre := rfl
@[simp] theorem State.drivenBy_tsr (s : State) (p : Ports) : (s.drivenBy p).tsr = s.tsr := rfl
@[simp] theorem State.drivenBy_act (s : State) (p : Ports) : (s.drivenBy p).act = s.act := rfl
@[simp] theorem State.drivenBy_bitn (s : State) (p : Ports) : (s.drivenBy p).bitn = s.bitn := rfl
@[simp] theorem State.drivenBy_ph (s : State) (p : Ports) : (s.drivenBy p).ph = s.ph := rfl
@[simp] theorem State.drivenBy_txc (s : State) (p : Ports) : (s.drivenBy p).txc = s.txc := rfl
@[simp] theorem State.drivenBy_fault (s : State) (p : Ports) : (s.drivenBy p).fault = s.fault := rfl
@[simp] theorem State.drivenBy_ports (s : State) (p : Ports) : (s.drivenBy p).ports = p := rfl
@[simp] theorem State.drivenBy_phase (s : State) (p : Ports) : (s.drivenBy p).phase = s.phase := rfl
@[simp] theorem State.drivenBy_program (s : State) (p : Ports) : (s.drivenBy p).program = s.program := rfl
@[simp] theorem State.drivenBy_params (s : State) (p : Ports) : (s.drivenBy p).params = s.params := rfl
@[simp] theorem State.drivenBy_draws (s : State) (p : Ports) : (s.drivenBy p).draws = s.draws := rfl

-- presenting
@[simp] theorem State.presenting_div (s : State) (w : CmdWord) : (s.presenting w).div = s.div := rfl
@[simp] theorem State.presenting_initd (s : State) (w : CmdWord) : (s.presenting w).initd = s.initd := rfl
@[simp] theorem State.presenting_word (s : State) (w : CmdWord) : (s.presenting w).word = s.word := rfl
@[simp] theorem State.presenting_wvalid (s : State) (w : CmdWord) : (s.presenting w).wvalid = s.wvalid := rfl
@[simp] theorem State.presenting_txbuf (s : State) (w : CmdWord) : (s.presenting w).txbuf = s.txbuf := rfl
@[simp] theorem State.presenting_seq (s : State) (w : CmdWord) : (s.presenting w).seq = Seq.idle := rfl
@[simp] theorem State.presenting_idx (s : State) (w : CmdWord) : (s.presenting w).idx = s.idx := rfl
@[simp] theorem State.presenting_tdr (s : State) (w : CmdWord) : (s.presenting w).tdr = s.tdr := rfl
@[simp] theorem State.presenting_dre (s : State) (w : CmdWord) : (s.presenting w).dre = s.dre := rfl
@[simp] theorem State.presenting_tsr (s : State) (w : CmdWord) : (s.presenting w).tsr = s.tsr := rfl
@[simp] theorem State.presenting_act (s : State) (w : CmdWord) : (s.presenting w).act = s.act := rfl
@[simp] theorem State.presenting_bitn (s : State) (w : CmdWord) : (s.presenting w).bitn = s.bitn := rfl
@[simp] theorem State.presenting_ph (s : State) (w : CmdWord) : (s.presenting w).ph = s.ph := rfl
@[simp] theorem State.presenting_txc (s : State) (w : CmdWord) : (s.presenting w).txc = s.txc := rfl
@[simp] theorem State.presenting_fault (s : State) (w : CmdWord) : (s.presenting w).fault = 0 := rfl
@[simp] theorem State.presenting_ports (s : State) (w : CmdWord) : (s.presenting w).ports = { rst := false, cmdValid := true, cmd := w, ops := s.ports.ops } := rfl
@[simp] theorem State.presenting_phase (s : State) (w : CmdWord) : (s.presenting w).phase = HostPhase.hold := rfl
@[simp] theorem State.presenting_program (s : State) (w : CmdWord) : (s.presenting w).program = s.program := rfl
@[simp] theorem State.presenting_params (s : State) (w : CmdWord) : (s.presenting w).params = s.params := rfl
@[simp] theorem State.presenting_draws (s : State) (w : CmdWord) : (s.presenting w).draws = s.draws := rfl

-- resetEdge
@[simp] theorem State.resetEdge_div (s : State) : (s.resetEdge).div = 0 := rfl
@[simp] theorem State.resetEdge_initd (s : State) : (s.resetEdge).initd = false := rfl
@[simp] theorem State.resetEdge_word (s : State) : (s.resetEdge).word = 0 := rfl
@[simp] theorem State.resetEdge_wvalid (s : State) : (s.resetEdge).wvalid = false := rfl
@[simp] theorem State.resetEdge_txbuf (s : State) : (s.resetEdge).txbuf = ⟨0, 0, 0, 0⟩ := rfl
@[simp] theorem State.resetEdge_seq (s : State) : (s.resetEdge).seq = Seq.idle := rfl
@[simp] theorem State.resetEdge_idx (s : State) : (s.resetEdge).idx = 0 := rfl
@[simp] theorem State.resetEdge_tdr (s : State) : (s.resetEdge).tdr = 0 := rfl
@[simp] theorem State.resetEdge_dre (s : State) : (s.resetEdge).dre = true := rfl
@[simp] theorem State.resetEdge_tsr (s : State) : (s.resetEdge).tsr = 0 := rfl
@[simp] theorem State.resetEdge_act (s : State) : (s.resetEdge).act = false := rfl
@[simp] theorem State.resetEdge_bitn (s : State) : (s.resetEdge).bitn = 0 := rfl
@[simp] theorem State.resetEdge_ph (s : State) : (s.resetEdge).ph = 0 := rfl
@[simp] theorem State.resetEdge_txc (s : State) : (s.resetEdge).txc = false := rfl
@[simp] theorem State.resetEdge_fault (s : State) : (s.resetEdge).fault = 0 := rfl
@[simp] theorem State.resetEdge_ports (s : State) : (s.resetEdge).ports = s.ports := rfl
@[simp] theorem State.resetEdge_phase (s : State) : (s.resetEdge).phase = s.phase := rfl
@[simp] theorem State.resetEdge_program (s : State) : (s.resetEdge).program = s.program := rfl
@[simp] theorem State.resetEdge_params (s : State) : (s.resetEdge).params = s.params := rfl
@[simp] theorem State.resetEdge_draws (s : State) : (s.resetEdge).draws = s.draws := rfl

-- The host's updates write its own three fields only.
@[simp] theorem State.startNextLine_div (s : State) : s.startNextLine.div = s.div := rfl
@[simp] theorem State.startNextLine_initd (s : State) : s.startNextLine.initd = s.initd := rfl
@[simp] theorem State.startNextLine_word (s : State) : s.startNextLine.word = s.word := rfl
@[simp] theorem State.startNextLine_wvalid (s : State) : s.startNextLine.wvalid = s.wvalid := rfl
@[simp] theorem State.startNextLine_txbuf (s : State) : s.startNextLine.txbuf = s.txbuf := rfl
@[simp] theorem State.startNextLine_seq (s : State) : s.startNextLine.seq = s.seq := rfl
@[simp] theorem State.startNextLine_idx (s : State) : s.startNextLine.idx = s.idx := rfl
@[simp] theorem State.startNextLine_tdr (s : State) : s.startNextLine.tdr = s.tdr := rfl
@[simp] theorem State.startNextLine_dre (s : State) : s.startNextLine.dre = s.dre := rfl
@[simp] theorem State.startNextLine_tsr (s : State) : s.startNextLine.tsr = s.tsr := rfl
@[simp] theorem State.startNextLine_act (s : State) : s.startNextLine.act = s.act := rfl
@[simp] theorem State.startNextLine_bitn (s : State) : s.startNextLine.bitn = s.bitn := rfl
@[simp] theorem State.startNextLine_ph (s : State) : s.startNextLine.ph = s.ph := rfl
@[simp] theorem State.startNextLine_txc (s : State) : s.startNextLine.txc = s.txc := rfl
@[simp] theorem State.startNextLine_fault (s : State) : s.startNextLine.fault = s.fault := rfl
@[simp] theorem State.startNextLine_params (s : State) : s.startNextLine.params = s.params := rfl
@[simp] theorem State.startNextLine_draws (s : State) : s.startNextLine.draws = s.draws := rfl

@[simp] theorem State.loadProgram_div (s : State) (lines : List HostLine) : (s.loadProgram lines).div = s.div := rfl
@[simp] theorem State.loadProgram_initd (s : State) (lines : List HostLine) : (s.loadProgram lines).initd = s.initd := rfl
@[simp] theorem State.loadProgram_word (s : State) (lines : List HostLine) : (s.loadProgram lines).word = s.word := rfl
@[simp] theorem State.loadProgram_wvalid (s : State) (lines : List HostLine) : (s.loadProgram lines).wvalid = s.wvalid := rfl
@[simp] theorem State.loadProgram_txbuf (s : State) (lines : List HostLine) : (s.loadProgram lines).txbuf = s.txbuf := rfl
@[simp] theorem State.loadProgram_seq (s : State) (lines : List HostLine) : (s.loadProgram lines).seq = s.seq := rfl
@[simp] theorem State.loadProgram_idx (s : State) (lines : List HostLine) : (s.loadProgram lines).idx = s.idx := rfl
@[simp] theorem State.loadProgram_tdr (s : State) (lines : List HostLine) : (s.loadProgram lines).tdr = s.tdr := rfl
@[simp] theorem State.loadProgram_dre (s : State) (lines : List HostLine) : (s.loadProgram lines).dre = s.dre := rfl
@[simp] theorem State.loadProgram_tsr (s : State) (lines : List HostLine) : (s.loadProgram lines).tsr = s.tsr := rfl
@[simp] theorem State.loadProgram_act (s : State) (lines : List HostLine) : (s.loadProgram lines).act = s.act := rfl
@[simp] theorem State.loadProgram_bitn (s : State) (lines : List HostLine) : (s.loadProgram lines).bitn = s.bitn := rfl
@[simp] theorem State.loadProgram_ph (s : State) (lines : List HostLine) : (s.loadProgram lines).ph = s.ph := rfl
@[simp] theorem State.loadProgram_txc (s : State) (lines : List HostLine) : (s.loadProgram lines).txc = s.txc := rfl
@[simp] theorem State.loadProgram_fault (s : State) (lines : List HostLine) : (s.loadProgram lines).fault = s.fault := rfl
@[simp] theorem State.loadProgram_params (s : State) (lines : List HostLine) : (s.loadProgram lines).params = s.params := rfl
@[simp] theorem State.loadProgram_draws (s : State) (lines : List HostLine) : (s.loadProgram lines).draws = s.draws := rfl

end Sys2Proof.Machine
end

