-- ==== Sys2Proof/Laws/Edge.lean ====
section
/-! SUPPORT. What one edge of the block can do, said once: the command unit's cases, the sequencer's, the shifter's, and the edge's. -/

namespace Sys2Proof.Machine

-- The three outcomes are told apart.
theorem next_inj {s t : State} : (Host.Outcome.next s : Host.Outcome State Fault Refusal) = .next t ↔ s = t :=
  ⟨fun h => by cases h; rfl, fun h => by rw [h]⟩

/-! ### Numbers -/

/-- `H = DIV + 1` (R141). -/
theorem half_toNat (s : State) : s.half.toNat = s.div.toNat + 1 := by
  have h := s.div.isLt
  simp only [State.half, BitVec.toNat_add, BitVec.toNat_setWidth, BitVec.toNat_ofNat]
  omega

/-- `2*H - 1 = 2*DIV + 1`, which never overflows (R146). -/
theorem lastPhase_toNat (s : State) : s.lastPhase.toNat = 2 * s.div.toNat + 1 := by
  have h := s.div.isLt
  simp only [State.lastPhase, BitVec.toNat_sub, BitVec.toNat_mul, BitVec.toNat_ofNat, half_toNat]
  omega

/-! ### Acceptance -/

/-- When a command is accepted (R190, R191). -/
theorem accepted_iff (s : State) :
    s.accepted = true ↔ s.ports.rst = false ∧ s.ports.cmdValid = true ∧ s.seq = .idle ∧ s.fault = 0 := by
  simp [State.accepted, State.cmdReady, and_assoc]

theorem cmdReady_iff (s : State) : s.cmdReady = true ↔ s.seq = .idle ∧ s.fault = 0 := by simp [State.cmdReady]

theorem busy_iff (s : State) : s.busy = true ↔ s.seq ≠ .idle := by simp [State.busy]

/-! ### The commands -/

/-- What a command can write (R193): nothing, an encoded word, a divisor, a frame, or a fault code. -/
inductive CommandWrites (s : State) : State → Prop where
  | nothing : CommandWrites s s
  | word (pol : Policy) : CommandWrites s (s.writeWord (s.encodedOperands pol))
  | divisor : s.initd = false → CommandWrites s (s.configure s.ports.ops.inDiv)
  | frame (f : Frame) : s.initd = true → CommandWrites s (s.startFrame f)
  | fault (c : FaultCode) : CommandWrites s (s.raise c)

/-- Every command answers a next state, one of the five kinds. -/
theorem exec_writes (i : Instr) (s : State) : ∃ c, exec i s = .next c ∧ CommandWrites s c := by
  cases i with
  | nop => exact ⟨s, rfl, .nothing⟩
  | encMan mb => exact ⟨_, rfl, .word (.manual mb)⟩
  | encOdd => exact ⟨_, rfl, .word .oddAuto⟩
  | encEven => exact ⟨_, rfl, .word .evenAuto⟩
  | init =>
    simp only [exec, execInit]
    split
    · exact ⟨_, rfl, .fault _⟩
    · rename_i h; exact ⟨_, rfl, .divisor (by simpa using h)⟩
  | xmitE =>
    simp only [exec, execXmitE]
    split
    · rename_i h
      split
      · exact ⟨_, rfl, .frame _ h⟩
      · exact ⟨_, rfl, .fault _⟩
    · exact ⟨_, rfl, .fault _⟩
  | xmitP =>
    simp only [exec, execXmitP]
    split
    · rename_i h; exact ⟨_, rfl, .frame _ h⟩
    · exact ⟨_, rfl, .fault _⟩

/-- The command unit writes nothing where no command is accepted (R190), else one of the five kinds. -/
theorem commandUnit_writes (s : State) :
    ∃ c, commandUnit s = .next c ∧ (s.accepted = false → c = s) ∧ (s.accepted = true → CommandWrites s c) := by
  unfold commandUnit
  split
  · rename_i h
    split
    · rename_i i _
      obtain ⟨c, hc, hw⟩ := exec_writes i s
      exact ⟨c, hc, fun h' => by simp [h] at h', fun _ => hw⟩
    · exact ⟨_, rfl, fun h' => by simp [h] at h', fun _ => .fault _⟩
  · rename_i h; exact ⟨s, rfl, fun _ => rfl, fun h' => absurd h' h⟩

/-! ### The sequencer -/

theorem sequencer_idle (pre cur : State) (h : pre.seq = .idle) : sequencer pre cur = cur := by simp [sequencer, h]

theorem sequencer_load (pre cur : State) (h : pre.seq = .load) (hd : pre.dre = true) :
    sequencer pre cur = loadByte pre cur := by simp [sequencer, h, hd]

theorem sequencer_load_wait (pre cur : State) (h : pre.seq = .load) (hd : pre.dre = false) :
    sequencer pre cur = cur := by simp [sequencer, h, hd]

theorem sequencer_waitc (pre cur : State) (h : pre.seq = .waitc) (hc : pre.txc = true) :
    sequencer pre cur = { cur with seq := .idle } := by simp [sequencer, h, hc]

theorem sequencer_waitc_wait (pre cur : State) (h : pre.seq = .waitc) (hc : pre.txc = false) :
    sequencer pre cur = cur := by simp [sequencer, h, hc]

/-! ### The shifter -/

theorem shiftCase_startByte (s : State) (ha : s.act = false) (hd : s.dre = false) : s.shiftCase = .startByte := by
  simp [State.shiftCase, ha, hd]

theorem shiftCase_idle (s : State) (ha : s.act = false) (hd : s.dre = true) : s.shiftCase = .idle := by
  simp [State.shiftCase, ha, hd]

theorem shiftCase_advancePhase (s : State) (ha : s.act = true) (hp : s.ph.toNat < 2 * s.div.toNat + 1) :
    s.shiftCase = .advancePhase := by
  have : s.ph < s.lastPhase := by rw [BitVec.lt_def, lastPhase_toNat]; exact hp
  simp [State.shiftCase, ha, this]

theorem shiftCase_nextBit (s : State) (ha : s.act = true) (hp : 2 * s.div.toNat + 1 ≤ s.ph.toNat) (hb : s.bitn.toNat < 7) :
    s.shiftCase = .nextBit := by
  have h1 : ¬ s.ph < s.lastPhase := by rw [BitVec.lt_def, lastPhase_toNat]; omega
  have h2 : s.bitn < 7#3 := by rw [BitVec.lt_def]; exact hb
  rw [State.shiftCase, if_neg (by simp [ha]), if_neg (by simp [ha]), if_neg h1, if_pos h2]

theorem shiftCase_nextByte (s : State) (ha : s.act = true) (hp : 2 * s.div.toNat + 1 ≤ s.ph.toNat) (hb : s.bitn = 7)
    (hd : s.dre = false) : s.shiftCase = .nextByte := by
  have h1 : ¬ s.ph < s.lastPhase := by rw [BitVec.lt_def, lastPhase_toNat]; omega
  simp [State.shiftCase, ha, h1, hb, hd]

theorem shiftCase_endOfFrame (s : State) (ha : s.act = true) (hp : 2 * s.div.toNat + 1 ≤ s.ph.toNat) (hb : s.bitn = 7)
    (hd : s.dre = true) : s.shiftCase = .endOfFrame := by
  have h1 : ¬ s.ph < s.lastPhase := by rw [BitVec.lt_def, lastPhase_toNat]; omega
  simp [State.shiftCase, ha, h1, hb, hd]

/-- What each case's test means, read back (R165). -/
theorem shiftCase_tests (s : State) :
    match s.shiftCase with
    | .startByte => s.act = false ∧ s.dre = false
    | .idle => s.act = false ∧ s.dre = true
    | .advancePhase => s.act = true ∧ s.ph.toNat < 2 * s.div.toNat + 1
    | .nextBit => s.act = true ∧ 2 * s.div.toNat + 1 ≤ s.ph.toNat ∧ s.bitn.toNat < 7
    | .nextByte => s.act = true ∧ 2 * s.div.toNat + 1 ≤ s.ph.toNat ∧ s.bitn = 7 ∧ s.dre = false
    | .endOfFrame => s.act = true ∧ 2 * s.div.toNat + 1 ≤ s.ph.toNat ∧ s.bitn = 7 ∧ s.dre = true := by
  have hb : ¬ s.bitn < 7#3 → s.bitn = 7 := fun h => by
    have h' : ¬ s.bitn.toNat < 7 := fun hn => h (by rw [BitVec.lt_def]; exact hn)
    exact BitVec.eq_of_toNat_eq (by have := s.bitn.isLt; simp; omega)
  have hp : ¬ s.ph < s.lastPhase → 2 * s.div.toNat + 1 ≤ s.ph.toNat := fun h => by
    rw [BitVec.lt_def, lastPhase_toNat] at h; omega
  unfold State.shiftCase
  split_ifs with h1 h2 h3 h4 h5
  · exact h1
  · exact ⟨h2, by simpa [h2] using h1⟩
  · exact ⟨by simpa using h2, by rw [BitVec.lt_def, lastPhase_toNat] at h3; exact h3⟩
  · exact ⟨by simpa using h2, hp h3, by rw [BitVec.lt_def] at h4; exact h4⟩
  · exact ⟨by simpa using h2, hp h3, hb h4, h5⟩
  · exact ⟨by simpa using h2, hp h3, hb h4, by simpa using h5⟩

/-! ### The edge -/

/-- A reset edge (R240). -/
theorem edge_reset (s : State) (h : s.ports.rst = true) : edge s = .next s.resetEdge := by simp [edge, h]

/-- An edge without reset: the merged writes of the three processes (R197). -/
theorem edge_of_commandUnit (s c : State) (h : s.ports.rst = false) (hc : commandUnit s = .next c) :
    edge s = .next (mergeWrites s c) := by simp [edge, h, hc]

/-- Where no command is accepted, the edge is the sequencer and the shifter alone (R190, R197). -/
theorem edge_unaccepted (s : State) (h : s.ports.rst = false) (ha : s.accepted = false) : edge s = .next (mergeWrites s s) := by
  obtain ⟨c, hc, hn, -⟩ := commandUnit_writes s
  rw [edge_of_commandUnit s c h hc, hn ha]

/-- With the sequencer and the shifter idle, an edge's merged writes are the command unit's (R150, R154). -/
theorem mergeWrites_idle (s c : State) (hq : s.seq = .idle) (ha : s.act = false) (hd : s.dre = true) : mergeWrites s c = c := by
  simp [mergeWrites, settleTxc, State.txcWrittenTwice, sequencer_idle s c hq, shifter, shiftCase_idle s ha hd]

/-- Where an idle sequencer means an idle shifter (R42 item 3), the merged writes are the three parts one after another: no register is written
twice (R198). -/
theorem mergeWrites_eq (s c : State) (h : s.seq = .idle → s.act = false) : mergeWrites s c = shifter s (sequencer s c) := by
  have ht : s.txcWrittenTwice c = false := by
    by_cases hq : s.seq = .idle
    · have hn : s.shiftCase ≠ .endOfFrame := fun he => by
        have h1 := shiftCase_tests s
        rw [he] at h1
        simp [h hq] at h1
      simp [State.txcWrittenTwice, hn]
    · simp [State.txcWrittenTwice, hq]
  simp [mergeWrites, settleTxc, ht]

/-- While a frame is in progress, an edge's merged writes are the sequencer's and the shifter's (R191, R198). -/
theorem mergeWrites_busy (s : State) (hq : s.seq ≠ .idle) : mergeWrites s s = shifter s (sequencer s s) :=
  mergeWrites_eq s s fun h => absurd h hq

/-- The sequencer does not look at the ports. -/
theorem sequencer_drivenBy (s : State) (p : Ports) : sequencer (s.drivenBy p) (s.drivenBy p) = (sequencer s s).drivenBy p := by
  cases hq : s.seq with
  | idle => rw [sequencer_idle _ _ hq, sequencer_idle (s.drivenBy p) _ hq]
  | load =>
    cases hd : s.dre
    · rw [sequencer_load_wait _ _ hq hd, sequencer_load_wait (s.drivenBy p) _ hq hd]
    · rw [sequencer_load _ _ hq hd, sequencer_load (s.drivenBy p) _ hq hd]; rfl
  | waitc =>
    cases hc : s.txc
    · rw [sequencer_waitc_wait _ _ hq hc, sequencer_waitc_wait (s.drivenBy p) _ hq hc]
    · rw [sequencer_waitc _ _ hq hc, sequencer_waitc (s.drivenBy p) _ hq hc]; rfl

/-- The shifter does not look at the ports. -/
theorem shifter_drivenBy (s c : State) (p : Ports) : shifter (s.drivenBy p) (c.drivenBy p) = (shifter s c).drivenBy p := by
  have h : (s.drivenBy p).shiftCase = s.shiftCase := rfl
  unfold shifter
  rw [h]
  cases s.shiftCase <;> rfl

/-- The shifter leaves the command unit's and the sequencer's own registers alone (R198). -/
theorem shifter_keeps (s c : State) :
    (shifter s c).tdr = c.tdr ∧ (shifter s c).idx = c.idx ∧ (shifter s c).seq = c.seq ∧ (shifter s c).word = c.word ∧
    (shifter s c).wvalid = c.wvalid ∧ (shifter s c).div = c.div ∧ (shifter s c).initd = c.initd ∧ (shifter s c).fault = c.fault ∧
    (shifter s c).txbuf = c.txbuf ∧ (shifter s c).params = c.params ∧ (shifter s c).ports = c.ports := by
  unfold shifter
  cases s.shiftCase <;> exact ⟨rfl, rfl, rfl, rfl, rfl, rfl, rfl, rfl, rfl, rfl, rfl⟩

/-- The sequencer leaves the command unit's and the shifter's own registers alone (R198). -/
theorem sequencer_keeps (s c : State) :
    (sequencer s c).tsr = c.tsr ∧ (sequencer s c).act = c.act ∧ (sequencer s c).bitn = c.bitn ∧ (sequencer s c).ph = c.ph ∧
    (sequencer s c).txc = c.txc ∧ (sequencer s c).word = c.word ∧ (sequencer s c).wvalid = c.wvalid ∧ (sequencer s c).div = c.div ∧
    (sequencer s c).initd = c.initd ∧ (sequencer s c).fault = c.fault ∧ (sequencer s c).txbuf = c.txbuf ∧
    (sequencer s c).params = c.params ∧ (sequencer s c).ports = c.ports := by
  unfold sequencer
  split
  · exact ⟨rfl, rfl, rfl, rfl, rfl, rfl, rfl, rfl, rfl, rfl, rfl, rfl, rfl⟩
  · split <;> exact ⟨rfl, rfl, rfl, rfl, rfl, rfl, rfl, rfl, rfl, rfl, rfl, rfl, rfl⟩
  · split <;> exact ⟨rfl, rfl, rfl, rfl, rfl, rfl, rfl, rfl, rfl, rfl, rfl, rfl, rfl⟩

/-- What settling TXC changes: TXC and the model's own count of draws (log 9). -/
theorem settleTxc_keeps (pre c m : State) : settleTxc pre c m = { m with txc := (settleTxc pre c m).txc, draws := (settleTxc pre c m).draws } := by
  unfold settleTxc
  split <;> rfl

end Sys2Proof.Machine
end

