-- ==== Sys2Proof/Laws/Encoder.lean ====
section
/-! SUPPORT. The encoder's functions bit by bit (40_encoder.md section 1): one lemma for each says what every bit of its result is. -/

namespace Sys2Proof.Machine

/-- R101. -/
theorem rev8_bit (b : Byte) (i : Nat) : (rev8 b).getLsbD i = (decide (i < 8) && b.getLsbD (7 - i)) := by
  rcases Nat.lt_or_ge i 8 with h | h
  · interval_cases i <;> simp [rev8, mirrorBit]
  · simp [BitVec.getLsbD_of_ge _ _ h, Nat.not_lt.mpr h]

/-- R101, bit by bit. -/
theorem rev8_getElem (b : Byte) (i : Nat) (hi : i < 8) : (rev8 b)[i] = b.getLsbD (7 - i) := by
  rw [← BitVec.getLsbD_eq_getElem, rev8_bit]; simp [hi]

/-- R102, the involution. -/
theorem rev8_rev8 (b : Byte) : rev8 (rev8 b) = b := by
  refine BitVec.eq_of_getLsbD_eq fun i hi => ?_
  simp only [rev8_bit, hi, show 7 - (7 - i) = i by omega, show 7 - i < 8 by omega, decide_true, Bool.true_and]

/-- The bits of a packed word under FULL (R83). -/
theorem packFull_bit (label : Label) (sdi : Sdi) (data : Data) (ssm : Ssm) (i : Nat) (hi : i < 32) :
    (packFull label sdi data ssm).getLsbD i =
      if i = 0 then false
      else if i < 3 then ssm.getLsbD (i - 1)
      else if i < 22 then data.getLsbD (i - 3)
      else if i < 24 then sdi.getLsbD (i - 22)
      else label.getLsbD (31 - i) := by
  interval_cases i <;> simp [packFull, rev8_getElem]

/-- The bits of a packed word under SOURCE_LITERAL (R84). -/
theorem packLiteral_bit (label : Label) (sdi : Sdi) (data : Data) (ssm : Ssm) (i : Nat) (hi : i < 32) :
    (packLiteral label sdi data ssm).getLsbD i =
      if i = 0 then false
      else if i = 1 then ssm.getLsbD 0
      else if i < 21 then data.getLsbD (i - 2)
      else if i = 21 then false
      else if i < 24 then sdi.getLsbD (i - 22)
      else label.getLsbD (31 - i) := by
  interval_cases i <;> simp [packLiteral, rev8_getElem]

/-- Parity insertion touches bit 0 only (R109). -/
theorem insertParity_bit (u : Word32) (p : Bit) (i : Nat) (hi : i < 32) :
    (insertParity u p).getLsbD i = if i = 0 then (u.getLsbD 0 || p.getLsbD 0) else u.getLsbD i := by
  rcases Nat.eq_zero_or_pos i with rfl | h
  · simp [insertParity]
  · have h1 : ¬ i < 1 := by omega
    have hp : p.getLsbD i = false := BitVec.getLsbD_of_ge _ _ (by omega)
    simp [insertParity, hp, Nat.pos_iff_ne_zero.mp h]

/-- Both layouts leave the parity slot empty (R103). -/
theorem pack_bit_zero (l : Layout) (label : Label) (sdi : Sdi) (data : Data) (ssm : Ssm) :
    (pack l label sdi data ssm).getLsbD 0 = false := by
  cases l
  · simpa [pack] using packFull_bit label sdi data ssm 0 (by omega)
  · simpa [pack] using packLiteral_bit label sdi data ssm 0 (by omega)

/-- The encoded word is the packed fields with the policy's bit in slot 0 (R109, R111). -/
theorem encodeWord_bit (p : Params) (label : Label) (sdi : Sdi) (data : Data) (ssm : Ssm) (pol : Policy) (i : Nat) (hi : i < 32) :
    (encodeWord p label sdi data ssm pol).getLsbD i =
      if i = 0 then (parityBit p.parityMask pol (pack p.layout label sdi data ssm)).getLsbD 0
      else (pack p.layout label sdi data ssm).getLsbD i := by
  simp only [encodeWord, insertParity_bit _ _ i hi, pack_bit_zero, Bool.false_or]

/-- The word a buffer came from is read back whole (R110, R115). -/
theorem deserialize_serialize (w : Word32) : deserialize (serialize w) = w := by
  refine BitVec.eq_of_getLsbD_eq fun i hi => ?_
  simp only [deserialize, serialize, rev8_rev8]
  interval_cases i <;> simp [Frame.toWord]

/-- The fold keeps the XOR of every bit (R104). -/
theorem xorFold32_bit (v : Word32) :
    (xorFold32 v).getLsbD 0 = (List.range 32).foldl (fun b i => b ^^ v.getLsbD i) false := by
  have : Std.Commutative xor := ⟨Bool.xor_comm⟩
  simp only [xorFold32, BitVec.getLsbD_extractLsb', BitVec.getLsbD_xor, BitVec.getLsbD_ushiftRight, List.range, List.range.loop,
    List.foldl, Nat.reduceAdd, Nat.reduceLT, decide_true, Bool.true_and, Bool.false_xor, Nat.add_zero]
  ac_rfl

/-- The number of 1 bits is odd exactly when their XOR is 1 (R104). -/
theorem onesBelow_mod_two {w : Nat} (v : BitVec w) (n : Nat) :
    onesBelow v n % 2 = ((List.range n).foldl (fun b i => b ^^ v.getLsbD i) false).toNat := by
  induction n with
  | zero => rfl
  | succ n ih =>
    rw [onesBelow, List.range_succ, List.foldl_append, List.foldl_cons, List.foldl_nil, Nat.add_mod, ih]
    cases (List.range n).foldl (fun b i => b ^^ v.getLsbD i) false <;> cases v.getLsbD n <;> rfl

/-- What `popcount` counts depends on the bits alone. -/
theorem onesBelow_congr {w w' : Nat} (v : BitVec w) (v' : BitVec w') (n : Nat)
    (h : ∀ i < n, v.getLsbD i = v'.getLsbD i) : onesBelow v n = onesBelow v' n := by
  induction n with
  | zero => rfl
  | succ n ih => rw [onesBelow, onesBelow, ih fun i hi => h i (by omega), h n (by omega)]

end Sys2Proof.Machine
end

