-- ==== Sys2Proof/Laws/Frame.lean ====
section
/-! SUPPORT. How a frame runs, edge by edge (41_transmitter.md sections 2 and 3): where a frame stands, and which edge leads where. -/

namespace Sys2Proof.Machine

/-- What does not change while a frame runs. -/
structure FrameFixed (t0 t : State) : Prop where
  div : t.div = t0.div
  txbuf : t.txbuf = t0.txbuf
  fault : t.fault = 0

/-- A frame at byte `y`, bit `b` of it, phase `r` of the bit period: byte `y` is in the shift register, and the next byte (if there is one) is
loaded at the edge after byte `y` starts. -/
structure FrameAt (t0 t : State) (y b r : Nat) : Prop extends FrameFixed t0 t where
  byte : ∃ v, t0.txbuf.byteAt y = some v ∧ t.tsr = v <<< b
  act : t.act = true
  bitn : t.bitn.toNat = b
  ph : t.ph.toNat = r
  txc : t.txc = false
  seq : t.seq = if y = 3 ∨ y = 2 ∧ (b ≠ 0 ∨ r ≠ 0) then .waitc else .load
  idx : t.idx.toNat = if y = 3 then 4 else if b = 0 ∧ r = 0 then y + 1 else y + 2
  dre : t.dre = decide (y = 3 ∨ b = 0 ∧ r = 0)
  tdr : y = 3 ∨ b = 0 ∧ r = 0 ∨ t0.txbuf.byteAt (y + 1) = some t.tdr

/-- An edge of a busy block without reset: no command is accepted, so the sequencer and the shifter do everything (R191, R197). -/
theorem edge_busy (t : State) (p : Ports) (hp : p.rst = false) (hs : t.seq ≠ .idle) :
    edge (t.drivenBy p) = .next ((shifter t (sequencer t t)).drivenBy p) := by
  have ha : (t.drivenBy p).accepted = false := by simp [State.accepted, State.cmdReady, hs]
  rw [edge_unaccepted _ hp ha, mergeWrites_busy _ (by simpa using hs), sequencer_drivenBy, shifter_drivenBy]

/-- Running one more edge after some edges. -/
theorem runPorts_snoc (ps : List Ports) (p : Ports) (s t : State) (h : runPorts ps s = .next t) :
    runPorts (ps ++ [p]) s = edge (t.drivenBy p) := by
  induction ps generalizing s with
  | nil =>
    simp only [runPorts, next_inj] at h
    subst h
    simp only [List.nil_append, runPorts]
    cases edge (s.drivenBy p) <;> rfl
  | cons q qs ih =>
    simp only [runPorts, List.cons_append] at h ⊢
    split at h
    · exact ih _ h
    · cases h
    · cases h

/-- The bits sampled over one more edge after some edges. -/
theorem wireBits_snoc (ps : List Ports) (p : Ports) (s t u : State) (h : runPorts ps s = .next t)
    (hu : edge (t.drivenBy p) = .next u) : wireBits (ps ++ [p]) s = wireBits ps s ++ sampledBit t u := by
  induction ps generalizing s with
  | nil =>
    simp only [runPorts, next_inj] at h
    subst h
    simp only [List.nil_append, wireBits, hu, List.append_nil]
  | cons q qs ih =>
    simp only [runPorts, List.cons_append, wireBits] at h ⊢
    split at h
    · simp only [ih _ h, List.append_assoc]
    · cases h
    · cases h

/-- The first edge of a frame loads byte 0 (R152). -/
theorem frame_first_edge (t0 : State) (p : Ports) (hp : p.rst = false) (hs : t0.seq = .load) (hi : t0.idx = 0) (ha : t0.act = false)
    (hd : t0.dre = true) :
    edge (t0.drivenBy p) = .next { t0 with tdr := t0.txbuf.b0, dre := false, idx := 1, ports := p } := by
  rw [edge_busy t0 p hp (by simp [hs]), sequencer_load t0 t0 hs hd]
  simp only [shifter, shiftCase_idle t0 ha hd, loadByte, State.drivenBy, State.nextFrameByte, hi, next_inj]
  simp [Frame.byteAt, hs]

/-- The second edge of a frame starts byte 0 (R145). -/
theorem frame_second_edge (t : State) (p : Ports) (hp : p.rst = false) (hs : t.seq = .load) (ha : t.act = false) (hd : t.dre = false) :
    edge (t.drivenBy p) = .next { t with tsr := t.tdr, dre := true, act := true, bitn := 0, ph := 0, ports := p } := by
  rw [edge_busy t p hp (by simp [hs]), sequencer_load_wait t t hs hd]
  simp [shifter, shiftCase_startByte t ha hd, State.drivenBy]

/-- The sequencer while byte `y` shifts: right after the byte starts it loads the next one, if there is one (R152); otherwise it waits. -/
theorem FrameAt.sequencer_eq {t0 t : State} {y b r : Nat} (h : FrameAt t0 t y b r) (hy : y < 4) (cur : State) :
    sequencer t cur = if y < 3 ∧ b = 0 ∧ r = 0 then loadByte t cur else cur := by
  by_cases h0 : y < 3 ∧ b = 0 ∧ r = 0
  · rw [if_pos h0]
    obtain ⟨hy3, rfl, rfl⟩ := h0
    exact sequencer_load t cur (by rw [h.seq, if_neg (by omega)]) (by rw [h.dre]; simp)
  · rw [if_neg h0]
    by_cases hw : y = 3 ∨ y = 2 ∧ (b ≠ 0 ∨ r ≠ 0)
    · exact sequencer_waitc_wait t cur (by rw [h.seq, if_pos hw]) h.txc
    · exact sequencer_load_wait t cur (by rw [h.seq, if_neg hw]) (by rw [h.dre]; simp; omega)

/-- The byte the sequencer loads right after byte `y` starts is byte `y + 1` (R152). -/
theorem FrameAt.nextFrameByte_eq {t0 t : State} {y : Nat} (h : FrameAt t0 t y 0 0) (hy : y < 3) :
    t0.txbuf.byteAt (y + 1) = some t.nextFrameByte := by
  have hi : t.idx.toNat = y + 1 := by rw [h.idx, if_neg (by omega), if_pos ⟨rfl, rfl⟩]
  unfold State.nextFrameByte
  rw [h.txbuf, hi]
  interval_cases y <;> rfl

/-- One edge inside a bit period: the phase advances (R146). -/
theorem FrameAt.next_phase {t0 t : State} {y b r : Nat} (h : FrameAt t0 t y b r) (hy : y < 4) (p : Ports) (hp : p.rst = false)
    (hr : r < 2 * t0.div.toNat + 1) : ∃ u, edge (t.drivenBy p) = .next u ∧ FrameAt t0 u y b (r + 1) := by
  have hs : t.seq ≠ .idle := by rw [h.seq]; split <;> simp
  have hc := shiftCase_advancePhase t h.act (by rw [h.ph, h.div]; exact hr)
  have hph : (t.ph + 1#17).toNat = r + 1 := by
    have := t0.div.isLt; rw [BitVec.toNat_add, h.ph]; simp; omega
  refine ⟨_, edge_busy t p hp hs, ?_⟩
  rw [h.sequencer_eq hy]
  obtain ⟨v, hv, ht⟩ := h.byte
  by_cases h0 : y < 3 ∧ b = 0 ∧ r = 0
  · rw [if_pos h0]
    obtain ⟨hy3, rfl, rfl⟩ := h0
    have hn := h.nextFrameByte_eq hy3
    have hi : t.idx.toNat = y + 1 := by rw [h.idx, if_neg (by omega), if_pos ⟨rfl, rfl⟩]
    have hq : t.seq = .load := by rw [h.seq, if_neg (by omega)]
    have hi3 : t.idx = 3#3 ↔ y = 2 := by
      rw [← BitVec.toNat_inj, hi]; simp
    have hi1 : (t.idx + 1#3).toNat = y + 2 := by rw [BitVec.toNat_add, hi]; simp; omega
    simp only [shifter, hc, loadByte, State.drivenBy]
    exact {
      div := h.div, txbuf := h.txbuf, fault := h.fault, byte := ⟨v, hv, ht⟩, act := h.act, bitn := h.bitn, ph := hph, txc := h.txc
      seq := by simp only [hi3, hq]; by_cases e : y = 2 <;> simp [e]; omega
      idx := by rw [hi1, if_neg (by omega), if_neg (by omega)]
      dre := by simp; omega
      tdr := by right; right; exact hn }
  · rw [if_neg h0]
    simp only [shifter, hc, State.drivenBy]
    exact {
      div := h.div, txbuf := h.txbuf, fault := h.fault, byte := ⟨v, hv, ht⟩, act := h.act, bitn := h.bitn, ph := hph, txc := h.txc
      seq := by rw [h.seq]; congr 1; simp; omega
      idx := by rw [h.idx]; by_cases e : y = 3 <;> simp [e]; omega
      dre := by rw [h.dre]; simp; omega
      tdr := by have := h.tdr; rcases this with h1 | h1 | h1 <;> simp_all; omega }

/-- The last edge of a bit period, with bits of the byte left: the next bit (R147). -/
theorem FrameAt.next_bit {t0 t : State} {y b r : Nat} (h : FrameAt t0 t y b r) (hy : y < 4) (p : Ports) (hp : p.rst = false)
    (hr : r = 2 * t0.div.toNat + 1) (hb : b < 7) : ∃ u, edge (t.drivenBy p) = .next u ∧ FrameAt t0 u y (b + 1) 0 := by
  have hs : t.seq ≠ .idle := by rw [h.seq]; split <;> simp
  have hc := shiftCase_nextBit t h.act (by rw [h.ph, h.div]; omega) (by rw [h.bitn]; exact hb)
  have hbit : (t.bitn + 1#3).toNat = b + 1 := by rw [BitVec.toNat_add, h.bitn]; simp; omega
  refine ⟨_, edge_busy t p hp hs, ?_⟩
  rw [h.sequencer_eq hy, if_neg (by omega)]
  obtain ⟨v, hv, ht⟩ := h.byte
  simp only [shifter, hc, State.drivenBy]
  exact {
    div := h.div, txbuf := h.txbuf, fault := h.fault, act := h.act, bitn := hbit, ph := rfl, txc := h.txc
    byte := ⟨v, hv, by simp only [ht, BitVec.shiftLeft_add]⟩
    seq := by rw [h.seq]; congr 1; simp; omega
    idx := by rw [h.idx]; by_cases e : y = 3 <;> simp [e]; omega
    dre := by rw [h.dre]; simp; omega
    tdr := by have := h.tdr; rcases this with h1 | h1 | h1 <;> simp_all }

/-- The last edge of a byte with another byte waiting: that byte starts, with no gap (R148). -/
theorem FrameAt.next_byte {t0 t : State} {y r : Nat} (h : FrameAt t0 t y 7 r) (hy : y < 3) (p : Ports) (hp : p.rst = false)
    (hr : r = 2 * t0.div.toNat + 1) : ∃ u, edge (t.drivenBy p) = .next u ∧ FrameAt t0 u (y + 1) 0 0 := by
  have hs : t.seq ≠ .idle := by rw [h.seq]; split <;> simp
  have hd : t.dre = false := by rw [h.dre]; simp; omega
  have hc := shiftCase_nextByte t h.act (by rw [h.ph, h.div]; omega) (BitVec.eq_of_toNat_eq (by rw [h.bitn]; rfl)) hd
  refine ⟨_, edge_busy t p hp hs, ?_⟩
  rw [h.sequencer_eq (by omega), if_neg (by omega)]
  have hn : t0.txbuf.byteAt (y + 1) = some t.tdr := by
    rcases h.tdr with h1 | h1 | h1
    · omega
    · omega
    · exact h1
  simp only [shifter, hc, State.drivenBy]
  exact {
    div := h.div, txbuf := h.txbuf, fault := h.fault, act := h.act, bitn := rfl, ph := rfl, txc := h.txc
    byte := ⟨t.tdr, hn, by simp⟩
    seq := by rw [h.seq]; congr 1; simp; omega
    idx := by rw [h.idx, if_neg (by omega), if_neg (by omega)]; by_cases e : y + 1 = 3 <;> simp [e]; omega
    dre := by simp
    tdr := by simp }

/-- The last edge of the frame's last byte: the completion flag (R149). -/
theorem FrameAt.end_of_frame {t0 t : State} {r : Nat} (h : FrameAt t0 t 3 7 r) (p : Ports) (hp : p.rst = false)
    (hr : r = 2 * t0.div.toNat + 1) :
    ∃ u, edge (t.drivenBy p) = .next u ∧ FrameFixed t0 u ∧ u.act = false ∧ u.txc = true ∧ u.seq = .waitc ∧ u.dre = true := by
  have hs : t.seq ≠ .idle := by rw [h.seq]; split <;> simp
  have hd : t.dre = true := by rw [h.dre]; simp
  have hc := shiftCase_endOfFrame t h.act (by rw [h.ph, h.div]; omega) (BitVec.eq_of_toNat_eq (by rw [h.bitn]; rfl)) hd
  refine ⟨_, edge_busy t p hp hs, ?_⟩
  rw [h.sequencer_eq (by omega), if_neg (by omega)]
  simp only [shifter, hc, State.drivenBy]
  exact ⟨⟨h.div, h.txbuf, h.fault⟩, trivial, trivial, by rw [h.seq]; simp, hd⟩

/-- The edge after the completion flag: the sequencer leaves WAITC (R153). -/
theorem frame_last_edge (t : State) (p : Ports) (hp : p.rst = false) (hs : t.seq = .waitc) (hc : t.txc = true) (ha : t.act = false)
    (hd : t.dre = true) : edge (t.drivenBy p) = .next { t with seq := .idle, ports := p } := by
  rw [edge_busy t p hp (by simp [hs]), sequencer_waitc t t hs hc]
  simp [shifter, shiftCase_idle t ha hd, State.drivenBy]

/-- Where a frame stands `2 + k` edges after its acceptance, for the `64 * H` edges its bits take (R160): bit `k / (2*H)`, phase
`k % (2*H)`. -/
theorem frame_position (t0 : State) (hf : t0.fault = 0) (hs : t0.seq = .load) (hi : t0.idx = 0) (ha : t0.act = false) (hd : t0.dre = true)
    (htx : t0.txc = false) (k : Nat) : ∀ ps : List Ports, ps.length = 2 + k → (∀ p ∈ ps, p.rst = false) → k < 64 * t0.halfPeriod →
    ∃ t, runPorts ps t0 = .next t ∧
      FrameAt t0 t (k / (16 * t0.halfPeriod)) (k / (2 * t0.halfPeriod) % 8) (k % (2 * t0.halfPeriod)) := by
  induction k with
  | zero =>
    intro ps hl hp _
    obtain ⟨p, q, rfl⟩ : ∃ p q, ps = [p, q] := List.length_eq_two.mp hl
    have h1 := frame_first_edge t0 p (hp p (by simp)) hs hi ha hd
    refine ⟨_, by simp only [runPorts, h1]; rw [frame_second_edge _ q (hp q (by simp)) (by simpa using hs) (by simpa using ha) rfl], ?_⟩
    exact {
      div := rfl, txbuf := rfl, fault := hf, act := rfl, bitn := by simp, ph := by simp, txc := htx
      byte := ⟨t0.txbuf.b0, by simp [Frame.byteAt], by simp⟩
      seq := by simp [hs]
      idx := by simp
      dre := by simp
      tdr := by simp }
  | succ k ih =>
    intro ps hl hp hk
    have hne : ps ≠ [] := by intro h; rw [h, List.length_nil] at hl; omega
    obtain ⟨qs, p, rfl⟩ : ∃ qs p, ps = qs ++ [p] := ⟨ps.dropLast, ps.getLast hne, (List.dropLast_append_getLast hne).symm⟩
    obtain ⟨t, ht, hat⟩ := ih qs (by simp at hl; omega) (fun x hx => hp x (by simp [hx])) (by omega)
    have hpr := hp p (by simp)
    rw [runPorts_snoc qs p t0 t ht]
    generalize hH : t0.halfPeriod = H at *
    have hdiv : t0.div.toNat + 1 = H := hH
    have hHp : 0 < H := by omega
    have hy : k / (16 * H) < 4 := by rw [Nat.div_lt_iff_lt_mul (by omega)]; omega
    have hy8 : k / (2 * H) / 8 = k / (16 * H) := by rw [Nat.div_div_eq_div_mul]; congr 1; omega
    have hr := Nat.mod_lt k (show 0 < 2 * H by omega)
    have dm := Nat.div_add_mod k (2 * H)
    set n := k / (2 * H) with hn
    set r := k % (2 * H) with hrr
    by_cases c1 : r + 1 < 2 * H
    · -- inside a bit period
      obtain ⟨u, hu, hau⟩ := hat.next_phase hy p hpr (by omega)
      refine ⟨u, hu, ?_⟩
      have e1 : (k + 1) / (2 * H) = n := by rw [Nat.div_eq_of_lt_le] <;> nlinarith
      have e2 : (k + 1) % (2 * H) = r + 1 := by have := Nat.div_add_mod (k + 1) (2 * H); rw [e1] at this; omega
      have e3 : (k + 1) / (16 * H) = k / (16 * H) := by
        rw [show 16 * H = 2 * H * 8 by ring, ← Nat.div_div_eq_div_mul, e1, hn, Nat.div_div_eq_div_mul]
      rw [e1, e2, e3]
      exact hau
    · -- at the end of a bit period
      have hrl : r = 2 * t0.div.toNat + 1 := by omega
      have e1 : (k + 1) / (2 * H) = n + 1 := by rw [Nat.div_eq_of_lt_le] <;> nlinarith
      have e2 : (k + 1) % (2 * H) = 0 := by have := Nat.div_add_mod (k + 1) (2 * H); rw [e1, Nat.mul_add] at this; omega
      have e3 : (k + 1) / (16 * H) = (n + 1) / 8 := by rw [show 16 * H = 2 * H * 8 by ring, ← Nat.div_div_eq_div_mul, e1]
      rw [e1, e2, e3]
      rw [← hy8] at hat hy
      by_cases c2 : n % 8 < 7
      · obtain ⟨u, hu, hau⟩ := hat.next_bit hy p hpr hrl c2
        refine ⟨u, hu, ?_⟩
        rw [show (n + 1) / 8 = n / 8 by omega, show (n + 1) % 8 = n % 8 + 1 by omega]
        exact hau
      · have c7 : n % 8 = 7 := by omega
        rw [c7] at hat
        have hn31 : n + 1 < 32 := by rw [← e1, Nat.div_lt_iff_lt_mul (by omega)]; omega
        obtain ⟨u, hu, hau⟩ := hat.next_byte (by omega) p hpr hrl
        refine ⟨u, hu, ?_⟩
        rw [show (n + 1) / 8 = n / 8 + 1 by omega, show (n + 1) % 8 = 0 by omega]
        exact hau

end Sys2Proof.Machine
end

