-- ==== Sys2Proof/Laws/PerInstr.lean ====
section
/-! SUPPORT. Per instruction, by the constructors of `Instr`: its encoding belongs to its own row of the opcode table and to no other
(30_encoding.md rule R77). -/

namespace Sys2Proof.Laws.OwnRow

/-- The instruction's word matches exactly one row, and that row has the instruction's mnemonic. -/
def Statement (i : Instr) : Prop :=
  (opcodeRows.filter (fun r => r.matchesWord (encode i))).map (fun r => r.mnemonic) = [i.mnemonic]

theorem nop : Statement .nop := by unfold Statement; decide

theorem encMan (mb : Bit) : Statement (.encMan mb) := by
  unfold Statement
  revert mb
  decide

theorem encOdd : Statement .encOdd := by unfold Statement; decide

theorem encEven : Statement .encEven := by unfold Statement; decide

theorem init : Statement .init := by unfold Statement; decide

theorem xmitE : Statement .xmitE := by unfold Statement; decide

theorem xmitP : Statement .xmitP := by unfold Statement; decide

end Sys2Proof.Laws.OwnRow
end

