-- ==== Sys2Proof/Laws/Step.lean ====
section
/-! SUPPORT. The step around the edge: the host's side writes the ports, its phase and its program, and nothing else (30_encoding.md R81). -/

namespace Sys2Proof.Machine

/-- A step is an edge of the block and then the host's next port values. -/
theorem step_next_iff (s t : State) : step s = .next t ↔ ∃ u, edge s = .next u ∧ t = driver s u := by
  unfold step
  cases h : edge s with
  | next u => simp only [next_inj]; exact ⟨fun e => ⟨u, rfl, e.symm⟩, fun ⟨v, hv, e⟩ => by cases hv; exact e.symm⟩
  | fault r => exact ⟨fun e => (by cases e), fun ⟨_, hv, _⟩ => by cases hv⟩
  | refused r => exact ⟨fun e => (by cases e), fun ⟨_, hv, _⟩ => by cases hv⟩

/-- What the host can do after an edge: keep everything, wait for a frame's end, count an edge down, or start its next line. -/
theorem driver_cases (s u : State) :
    driver s u = u ∨ driver s u = { u with ports := Ports.idle, phase := .frame } ∨
    (∃ n, driver s u = { u with phase := .edges n }) ∨ driver s u = u.startNextLine := by
  unfold driver
  split
  · exact .inl rfl
  · split
    · split
      · exact .inr (.inl rfl)
      · exact .inr (.inr (.inr rfl))
    · exact .inl rfl
  · split
    · exact .inl rfl
    · exact .inr (.inr (.inr rfl))
  · split
    · exact .inr (.inr (.inr rfl))
    · exact .inr (.inr (.inl ⟨_, rfl⟩))

/-- The host's next line, by the lines of its program. -/
theorem startNextLine_eq (s : State) (lines : List HostLine) (h : s.program = lines) :
    s.startNextLine = { s with ports := (startLine lines).1, phase := (startLine lines).2.1, program := (startLine lines).2.2 } := by
  rw [State.startNextLine, h]

@[simp] theorem driver_div (s u : State) : (driver s u).div = u.div := by
  rcases driver_cases s u with h | h | ⟨n, h⟩ | h <;> simp [h]

@[simp] theorem driver_initd (s u : State) : (driver s u).initd = u.initd := by
  rcases driver_cases s u with h | h | ⟨n, h⟩ | h <;> simp [h]

@[simp] theorem driver_word (s u : State) : (driver s u).word = u.word := by
  rcases driver_cases s u with h | h | ⟨n, h⟩ | h <;> simp [h]

@[simp] theorem driver_wvalid (s u : State) : (driver s u).wvalid = u.wvalid := by
  rcases driver_cases s u with h | h | ⟨n, h⟩ | h <;> simp [h]

@[simp] theorem driver_txbuf (s u : State) : (driver s u).txbuf = u.txbuf := by
  rcases driver_cases s u with h | h | ⟨n, h⟩ | h <;> simp [h]

@[simp] theorem driver_seq (s u : State) : (driver s u).seq = u.seq := by
  rcases driver_cases s u with h | h | ⟨n, h⟩ | h <;> simp [h]

@[simp] theorem driver_idx (s u : State) : (driver s u).idx = u.idx := by
  rcases driver_cases s u with h | h | ⟨n, h⟩ | h <;> simp [h]

@[simp] theorem driver_tdr (s u : State) : (driver s u).tdr = u.tdr := by
  rcases driver_cases s u with h | h | ⟨n, h⟩ | h <;> simp [h]

@[simp] theorem driver_dre (s u : State) : (driver s u).dre = u.dre := by
  rcases driver_cases s u with h | h | ⟨n, h⟩ | h <;> simp [h]

@[simp] theorem driver_tsr (s u : State) : (driver s u).tsr = u.tsr := by
  rcases driver_cases s u with h | h | ⟨n, h⟩ | h <;> simp [h]

@[simp] theorem driver_act (s u : State) : (driver s u).act = u.act := by
  rcases driver_cases s u with h | h | ⟨n, h⟩ | h <;> simp [h]

@[simp] theorem driver_bitn (s u : State) : (driver s u).bitn = u.bitn := by
  rcases driver_cases s u with h | h | ⟨n, h⟩ | h <;> simp [h]

@[simp] theorem driver_ph (s u : State) : (driver s u).ph = u.ph := by
  rcases driver_cases s u with h | h | ⟨n, h⟩ | h <;> simp [h]

@[simp] theorem driver_txc (s u : State) : (driver s u).txc = u.txc := by
  rcases driver_cases s u with h | h | ⟨n, h⟩ | h <;> simp [h]

@[simp] theorem driver_fault (s u : State) : (driver s u).fault = u.fault := by
  rcases driver_cases s u with h | h | ⟨n, h⟩ | h <;> simp [h]

@[simp] theorem driver_params (s u : State) : (driver s u).params = u.params := by
  rcases driver_cases s u with h | h | ⟨n, h⟩ | h <;> simp [h]

@[simp] theorem driver_draws (s u : State) : (driver s u).draws = u.draws := by
  rcases driver_cases s u with h | h | ⟨n, h⟩ | h <;> simp [h]

/-- A line that waits for acceptance keeps driving the same ports until it is accepted (R81, R196). -/
theorem driver_hold_unaccepted (s u : State) (h : s.phase = .hold) (ha : s.accepted = false) : driver s u = u := by
  simp [driver, h, ha]

end Sys2Proof.Machine
end

