-- ==== Sys2Proof/Tests/Slice0.lean ====
section
/-! SUPPORT. Small tests, each on one step or one function, with expected values from spec/95_test_vectors.md or worked by hand from the rule
named; then, for each obligation with hypotheses, a state and operands that meet them (boundary values where clauses meet). -/

namespace Sys2Proof.Tests

open Sys2Proof.Machine

/-! ### Small states -/

/-- The next state, where there is one. -/
def after (o : Host.Outcome State Fault Refusal) : Option State :=
  match o with
  | .next t => some t
  | .fault _ => none
  | .refused _ => none

/-- Operands (label, sdi, data, ssm). -/
def enc (label sdi data ssm : Nat) : Operands := Operands.forEnc label sdi data ssm

/-- A state with a command presented for one acceptance. -/
def presents (s : State) (w : CmdWord) (ops : Operands) : State :=
  { s with ports := { rst := false, cmdValid := true, cmd := w, ops := ops }, phase := .hold }

/-- After `INIT 1` and `ENC.ODD` of the demonstration payload (S3). -/
def ready : State := { State.reset with div := 1, initd := true, word := 0xDA7B07FE#32, wvalid := true }

/-- A ready block with `rst` driven. -/
def resetting (s : State) : State := { s with ports := { Ports.idle with rst := true } }

/-- T1's row after edge 0: the frame DA DE E0 7F at DIV = 0 is accepted. -/
def t1Edge0 : State :=
  { State.reset with initd := true, txbuf := ⟨0xDA#8, 0xDE#8, 0xE0#8, 0x7F#8⟩, seq := .load }

/-- T1's row after edge 17. -/
def t1Edge17 : State :=
  { t1Edge0 with idx := 2, tdr := 0xDE#8, dre := false, tsr := 0x00#8, act := true, bitn := 7, ph := 1 }

/-- T1's row after edge 62. -/
def t1Edge62 : State :=
  { t1Edge0 with seq := .waitc, idx := 4, tdr := 0x7F#8, tsr := 0xC0#8, act := true, bitn := 6, ph := 0 }

/-- T1's row after edge 65. -/
def t1Edge65 : State := { t1Edge62 with tsr := 0x80#8, bitn := 7, ph := 1 }

/-- T1's row after edge 66. -/
def t1Edge66 : State := { t1Edge65 with act := false, bitn := 0, ph := 0, txc := true }

/-! ### Decoding and well-formedness -/

-- R75, written out bit by bit: family N (op 0000, 0010), family E (op 0001, pol, mb), family X (op 0011, src).
theorem test_decode_nop_bits : decode (0b0000#4 ++ 0b0000#4) = some .nop := by decide
theorem test_decode_encMan_bits : decode (0b0001#4 ++ 0b00#2 ++ 0b1#1 ++ 0b0#1) = some (.encMan 1#1) := by decide
theorem test_decode_encEven_bits : decode (0b0001#4 ++ 0b10#2 ++ 0b0#1 ++ 0b0#1) = some .encEven := by decide
theorem test_decode_init_bits : decode (0b0010#4 ++ 0b0000#4) = some .init := by decide
theorem test_decode_xmitP_bits : decode (0b0011#4 ++ 0b1#1 ++ 0b000#3) = some .xmitP := by decide
-- The illegal rows of spec/95_test_vectors.md section 2.5.
theorem test_decode_illegal_rows :
    [0x01#8, 0x0F#8, 0x11#8, 0x13#8, 0x16#8, 0x1A#8, 0x1C#8, 0x1E#8, 0x21#8, 0x28#8, 0x31#8, 0x34#8, 0x3F#8, 0x40#8, 0x80#8, 0xFF#8].all
      (fun w => decide (decode w = none)) = true := by decide
-- decodeTableWord reads the one byte.
theorem test_decodeTableWord : decodeTableWord 8 0x12 = some (.encMan 1#1) ∧ decodeTableWord 8 0x16 = none := by decide

-- WellFormed: one ill-formed word for each check of a format.
theorem test_legalN_refuses_reserved_bits : CmdWord.legalN 0x21#8 = false := by decide
theorem test_legalN_refuses_other_ops : CmdWord.legalN 0x40#8 = false := by decide
theorem test_legalE_refuses_other_ops : CmdWord.legalE 0x24#8 = false := by decide
theorem test_legalE_refuses_pol_11 : CmdWord.legalE 0x1C#8 = false := by decide
theorem test_legalE_refuses_mb_with_odd : CmdWord.legalE 0x16#8 = false := by decide
theorem test_legalE_refuses_bit_0 : CmdWord.legalE 0x11#8 = false := by decide
theorem test_legalX_refuses_other_ops : CmdWord.legalX 0x28#8 = false := by decide
theorem test_legalX_refuses_reserved_bits : CmdWord.legalX 0x34#8 = false := by decide
theorem test_legal_words_number_8 : ((List.range 256).filter (fun n => CmdWord.legal (BitVec.ofNat 8 n))).length = 8 := by
  set_option maxRecDepth 10000 in decide
-- The assembler refuses mb = 2 and CMD 256 (R81).
theorem test_asm_refuses_mb_2 : asmLineWf (.encMan 2 ⟨0, 0, 0, 0⟩) = false := by decide
theorem test_asm_refuses_manual_2 : asmLineWf (.send (.manual 2) ⟨0, 0, 0, 0⟩) = false := by decide
theorem test_asm_refuses_cmd_256 : asmLineWf (.cmd 256) = false := by decide
theorem test_wf_encMan : Instr.wf (.encMan 1#1) = true := by decide

/-! ### The encoder (spec/95_test_vectors.md sections 2.1 to 2.4) -/

theorem test_rev8_rows : rev8 0x0F#8 = 0xF0#8 ∧ rev8 0x12#8 = 0x48#8 ∧ rev8 0x3C#8 = 0x3C#8 ∧ rev8 0x80#8 = 0x01#8 := by decide
theorem test_xorFold_rows :
    xorFold32 0x80000000#32 = 1#1 ∧ xorFold32 0x7FFFFFFF#32 = 1#1 ∧ xorFold32 0xFFFFFFFF#32 = 0#1 ∧ xorFold32 0xDA7B07FC#32 = 0#1 := by
  decide
theorem test_popcount_rows : popcount 0xDA7B07FE#32 = 21 ∧ popcount 0x7FFFFFFF#32 = 31 := by decide
-- L3 and L7: the literal layout leaves bit 21 at 0 and drops ssm[1].
theorem test_literal_L3 : encodeWord ⟨.sourceLiteral, .exceptParity⟩ 0xFF#8 3#2 0x7FFFF#19 3#2 .oddAuto = 0xFFDFFFFF#32 := by decide
theorem test_literal_L7 : encodeWord ⟨.sourceLiteral, .exceptParity⟩ 0#8 0#2 0#19 2#2 .oddAuto = 0x00000001#32 := by decide
-- M1 and M2: the other mask leaves the top bit out of the parity.
theorem test_mask_M1 :
    encodeWord ⟨.full, .exceptTop⟩ 0x5B#8 1#2 0x760FF#19 3#2 .oddAuto = 0xDA7B07FF#32 ∧
    encodeWord ⟨.sourceLiteral, .exceptTop⟩ 0x5B#8 1#2 0x760FF#19 3#2 .evenAuto = 0xDA5D83FF#32 := by decide
theorem test_mask_M2 : encodeWord ⟨.full, .exceptTop⟩ 0x01#8 0#2 0#19 0#2 .evenAuto = 0x80000000#32 := by decide
-- Section 2.4: the parity bit alone is wire bit 25 (index 24).
theorem test_wire_of_parity_bit : frameBits (serialize 0x00000001#32) =
    [false, false, false, false, false, false, false, false, false, false, false, false, false, false, false, false,
     false, false, false, false, false, false, false, false, true, false, false, false, false, false, false, false] := by decide
theorem test_decodeBuffer_E13 : decodeBuffer ⟨0xC3#8, 0xAB#8, 0xAA#8, 0xCA#8⟩ = ⟨0xC3#8, 3#2, 0x2AAAA#19, 1#2, 1#1⟩ := by decide

/-! ### The commands, one step each -/

-- R194: after reset, NOP leaves every register at its reset value. F8: after a fault it is never accepted.
theorem test_nop_leaves_reset : (after (step (presents State.reset 0x00#8 Operands.zero))).map (fun t => decide (t.AtReset)) = some true := by
  decide
theorem test_nop_held_after_fault :
    (after (step (presents { State.reset with fault := 2 } 0x00#8 Operands.zero))).map (fun t => (t.fault, t.phase)) = some (2#3, .hold) := by
  decide
-- E1 and E13, ENC.MAN with mb = 1.
theorem test_encMan_E1 :
    (after (step (presents State.reset 0x12#8 (enc 0x5B 1 0x760FF 3)))).map (fun t => (t.word, t.wvalid)) = some (0xDA7B07FF#32, true) := by
  decide
theorem test_encMan_E13 :
    (after (step (presents State.reset 0x12#8 (enc 0xC3 3 0x2AAAA 1)))).map (fun t => t.outputs.buf) = some 0xC3ABAACA#32 := by decide
-- E15 (truncated host values give E1) and E9 (the highest data bit).
theorem test_encOdd_E15 :
    (after (step (presents State.reset 0x14#8 (enc 0x15B 5 0xF60FF 7)))).map (fun t => t.word) = some 0xDA7B07FE#32 := by decide
theorem test_encOdd_E9 :
    (after (step (presents State.reset 0x14#8 (enc 0 0 0x40000 0)))).map (fun t => t.outputs.buf) = some 0x00040000#32 := by decide
-- E14 and E16 (a new word overwrites the old one).
theorem test_encEven_E14 :
    (after (step (presents State.reset 0x18#8 (enc 0xA5 2 0x55555 2)))).map (fun t => t.word) = some 0xA5AAAAAC#32 := by decide
theorem test_encEven_E16 :
    (after (step (presents ready 0x18#8 (enc 0 0 0 0)))).map (fun t => (t.word, t.wvalid)) = some (0x00000000#32, true) := by decide
-- Section 2.7 I3 and I5.
theorem test_init_I3 :
    (after (step (presents State.reset 0x20#8 (Operands.forInit 0xFFFF)))).map (fun t => (t.div, t.initd, t.lastPhase)) =
      some (0xFFFF#16, true, 131071#17) := by decide
theorem test_init_I5 :
    (after (step (presents ready 0x20#8 (Operands.forInit 7)))).map (fun t => (t.fault, t.div)) = some (2#3, 1#16) := by decide
-- F4 (E_NOINIT before E_NOWORD) and the frame of S3.
theorem test_xmitE_F4 :
    (after (step (presents State.reset 0x30#8 Operands.zero))).map (fun t => (t.fault, t.seq)) = some (3#3, .idle) := by decide
theorem test_xmitE_S3 :
    (after (step (presents ready 0x30#8 Operands.zero))).map (fun t => (t.txbuf, t.seq, t.txc)) =
      some (⟨0xDA#8, 0xDE#8, 0xE0#8, 0x7F#8⟩, .load, false) := by decide
-- F3 and T1's row after edge 0, from a stale TXC (T5).
theorem test_xmitP_F3 :
    (after (step (presents State.reset 0x38#8 (Operands.forXmitP 0x12345678)))).map (fun t => (t.fault, t.txbuf)) =
      some (3#3, ⟨0x00#8, 0x00#8, 0x00#8, 0x00#8⟩) := by decide
theorem test_xmitP_T1 :
    (after (step (presents { ready with txc := true, wvalid := false } 0x38#8 (Operands.forXmitP 0xDADEE07F)))).map
      (fun t => (t.txbuf, t.txc, t.idx, t.outputs.busy)) = some (⟨0xDA#8, 0xDE#8, 0xE0#8, 0x7F#8⟩, false, 0#3, true) := by decide
-- F7: an illegal XMIT-like word is E_ILLEGAL before E_NOINIT.
theorem test_illegal_F7 : (after (step (presents State.reset 0x3C#8 Operands.zero))).map (fun t => t.fault) = some 1#3 := by decide
-- Section 2.9 R3: reset wins over a command at the same edge.
theorem test_reset_R3 :
    (after (step { presents ready 0x20#8 (Operands.forInit 2) with
      ports := { rst := true, cmdValid := true, cmd := 0x20#8, ops := Operands.forInit 2 } })).map (fun t => t.initd) = some false := by decide
-- The table word of each row is the instruction the next step runs.
theorem test_withFetchWord_encOdd :
    (after (step (State.reset.withFetchWord 8 0x14))).map (fun t => (t.word, t.wvalid)) = some (0x00000001#32, true) := by decide

/-! ### Edges of a frame (spec/95_test_vectors.md T1) -/

theorem test_T1_edge_1 :
    (after (step t1Edge0)).map (fun t => (t.seq, t.idx, t.tdr, t.dre, t.act)) = some (.load, 1#3, 0xDA#8, false, false) := by decide
theorem test_T1_edge_18 :
    (after (step t1Edge17)).map (fun t => ((t.seq, t.idx, t.tdr, t.dre), (t.tsr, t.act, t.bitn, t.ph))) =
      some ((.load, 2#3, 0xDE#8, true), (0xDE#8, true, 0#3, 0#17)) := by decide
theorem test_T1_edge_63 : (after (step t1Edge62)).map (fun t => (t.tsr, t.bitn, t.ph, t.sck)) = some (0xC0#8, 6#3, 1#17, true) := by decide
theorem test_T1_edge_66 :
    (after (step t1Edge65)).map (fun t => (t.seq, t.act, t.bitn, t.ph, t.txc, t.sck)) = some (.waitc, false, 0#3, 0#17, true, false) := by
  decide
theorem test_T1_edge_67 : (after (step t1Edge66)).map (fun t => (t.seq, t.txc, t.outputs.cmdReady)) = some (.idle, true, true) := by decide

/-! ### The host's program (R81, R82) -/

theorem test_parse_encMan : parseLine "ENC.MAN 1, 0x5B, 0x1, 0x760FF, 0x3" = some (.encMan 1 ⟨0x5B, 1, 0x760FF, 3⟩) := by decide
theorem test_parse_send : parseLine "SEND OddAuto, 0x5B, 1, 10, 3" = some (.send .oddAuto ⟨0x5B, 1, 10, 3⟩) := by decide
theorem test_parse_enc_manual : parseLine "ENC Manual(1), 0, 1, 2, 3" = some (.enc (.manual 1) ⟨0, 1, 2, 3⟩) := by decide
theorem test_parse_refuses_mb_2 : parseLine "ENC.MAN 2, 0, 0, 0, 0" = none := by decide
-- P5 line 3: TRANSMIT 0xDA, 0xDE, 0xE0, 0x7F is XMIT.P 0xDADEE07F.
theorem test_transmit_P5 : expandLine (.transmit 0xDA 0xDE 0xE0 0x7F) = expandLine (.xmitP 0xDADEE07F) := by decide
-- P3's first line is presented at the first edge: RESET drives rst.
theorem test_loadProgram_reset : (State.reset.loadProgram [.reset, .present 0x20#8 Operands.zero]).ports.rst = true := by decide
-- WAIT 2 covers two edges.
theorem test_wait_2 :
    (after (step (State.reset.loadProgram [.wait 2, .reset]))).map (fun t => (t.phase, t.ports.rst)) = some (.edges 1, false) := by decide

/-! ### Witnesses: states and operands that meet the obligations' hypotheses -/

/-- The presented word 0x40, which is illegal. -/
def presentsIllegal : State := presents State.reset 0x40#8 Operands.zero

theorem test_witness_IllegalWordsRaiseIllegal : presentsIllegal.accepted = true ∧ decode presentsIllegal.ports.cmd = none := by decide
theorem test_witness_ParityInsertedAtBitZero : (0xDA7B07FE#32).getLsbD 0 = false := by decide
theorem test_witness_WordParityIsCorrect : (0x5B#8).getLsbD 0 = true := by decide
theorem test_witness_PortByteOrder : ready.initd = true := by decide
theorem test_witness_EveryOperandBitReachesTheBuffer :
    ((0x5B#8, 1#2, 0x760FF#19, 3#2) : Label × Sdi × Data × Ssm) ≠ (0x5B#8, 1#2, 0x760FF#19, 1#2) ∧ (1#2).getLsbD 0 = (3#2).getLsbD 0 ∧
    pack .full 0x5B#8 1#2 0x760FF#19 3#2 = pack .full 0x5B#8 1#2 0x760FF#19 3#2 := by decide
theorem test_witness_NopChangesNothing :
    (presents State.reset 0x00#8 Operands.zero).ports.rst = false ∧ (presents State.reset 0x00#8 Operands.zero).ports.cmdValid = true ∧
    t1Edge0.cmdReady = false ∧ 0 < (0x0F#8).toNat ∧ (0x0F#8).toNat < 16 := by decide
theorem test_witness_EncodingIsDeterministic : IsEncInstr (.encMan 0#1) ∧ IsEncInstr .encOdd ∧ IsEncInstr .encEven := by decide
theorem test_witness_InitConfiguresOnce :
    State.reset.initd = false ∧ ready.initd = true ∧ State.reset.act = false ∧ t1Edge0.busy = true ∧
    ∃ t, exec .init State.reset = .next t := ⟨by decide, by decide, by decide, by decide, _, rfl⟩
theorem test_witness_DecodeAndEncodeAgree : Instr.wf (.encMan 1#1) = true ∧ Instr.wf .xmitP = true ∧ decode 0x12#8 = some (.encMan 1#1) := by decide
theorem test_witness_ReversalMirrorsBits : (0 : Nat) < 8 ∧ 7 < 8 := by decide
theorem test_witness_ParityInputCoverage : (0 : Nat) < 32 ∧ 31 < 32 := by decide
theorem test_witness_BufferFieldPositions : (⟨0xDA#8, 0xDE#8, 0xE0#8, 0x7F#8⟩ : Frame) =
    serialize (encodeWord ⟨.full, .exceptParity⟩ 0x5B#8 1#2 0x760FF#19 3#2 .oddAuto) := by decide
theorem test_witness_ManualParityIsIsolated :
    0xDA7B07FF#32 = encodeWord Params.default 0x5B#8 1#2 0x760FF#19 3#2 (.manual 1#1) ∧
    0xDA7B07FE#32 = encodeWord Params.default 0x5B#8 1#2 0x760FF#19 3#2 (.manual 0#1) := by decide
theorem test_witness_XmitPStartsTheFrame : ({ State.reset with initd := true } : State).initd = true := by decide
theorem test_witness_XmitEStartsTheFrame : ready.initd = true ∧ ready.wvalid = true := by decide
theorem test_witness_XmitFaults :
    State.reset.initd = false ∧ ({ State.reset with initd := true } : State).wvalid = false ∧ State.reset.fault = 0 ∧
    ∃ t, exec .xmitP State.reset = .next t := ⟨by decide, by decide, by decide, _, rfl⟩
theorem test_witness_RaisingAFaultWritesOnlyFault : ∃ c, commandUnit presentsIllegal = .next c ∧ c.fault ≠ presentsIllegal.fault :=
  ⟨_, rfl, by decide⟩

/-- One state for each clause of FaultPriority: XMIT.E and XMIT.P without INIT, XMIT.E without a word, a second INIT. -/
def faultCases : List State :=
  [presents State.reset 0x30#8 Operands.zero, presents State.reset 0x38#8 Operands.zero,
   presents { State.reset with initd := true } 0x30#8 Operands.zero, presents ready 0x20#8 Operands.zero]

theorem test_witness_FaultPriority :
    faultCases.map (fun s => (s.accepted, decode s.ports.cmd, s.initd, s.wvalid)) =
      [(true, some .xmitE, false, false), (true, some .xmitP, false, false), (true, some .xmitE, true, false),
       (true, some .init, true, true)] ∧
    presentsIllegal.accepted = true ∧ decode presentsIllegal.ports.cmd = none ∧ (resetting ready).ports.rst = true := by decide
theorem test_witness_FaultPriority_reinit :
    ∃ c, commandUnit (presents ready 0x20#8 Operands.zero) = .next c ∧ c.fault = 2#3 := ⟨_, rfl, by decide⟩
theorem test_witness_CommandsReadOnlyTheirOperands :
    (enc 1 1 1 1).inLabel = (enc 1 1 1 1).inLabel ∧ (Operands.forInit 3).inDiv = (Operands.forInit 3).inDiv ∧
    (∃ t, exec .encOdd (ready.drivenBy Ports.idle) = .next t) ∧ (∃ t, exec .init (ready.drivenBy Ports.idle) = .next t) ∧
    (∃ t, exec .xmitP (ready.drivenBy Ports.idle) = .next t) ∧ (∃ t, exec .nop (ready.drivenBy Ports.idle) = .next t) ∧
    ∃ t, exec .xmitE (ready.drivenBy Ports.idle) = .next t := ⟨rfl, rfl, ⟨_, rfl⟩, ⟨_, rfl⟩, ⟨_, rfl⟩, ⟨_, rfl⟩, _, rfl⟩
theorem test_witness_AcceptanceRule :
    (presents ready 0x30#8 Operands.zero).accepted = true ∧ decode 0x30#8 = some .xmitE ∧ State.reset.accepted = false := by decide
theorem test_witness_StepRunsTheDecodedInstruction :
    (presents ready 0x12#8 Operands.zero).accepted = true ∧ decode 0x12#8 = some (.encMan 1#1) ∧ Instr.wf (.encMan 1#1) = true := by decide
theorem test_witness_AcceptedCommandIsTheWholeEdge :
    (presents ready 0x30#8 Operands.zero).Inv ∧ ∃ c, commandUnit (presents ready 0x30#8 Operands.zero) = .next c := ⟨by decide, _, rfl⟩
theorem test_witness_UnreadyCommandHasNoEffect :
    t1Edge0.cmdReady = false ∧ Ports.idle.rst = false ∧ (∃ t, edge (t1Edge0.drivenBy Ports.idle) = .next t) ∧
    ({ t1Edge0 with phase := .hold } : State).accepted = false ∧ ∃ t, step { t1Edge0 with phase := .hold } = .next t :=
  ⟨by decide, by decide, ⟨_, rfl⟩, by decide, _, rfl⟩
theorem test_witness_OperandsSampledOnlyAtAcceptance :
    (ready.drivenBy Ports.idle).accepted = false ∧ (ready.drivenBy { Ports.idle with cmd := 0x30#8 }).accepted = false ∧
    ∃ t, edge (ready.drivenBy Ports.idle) = .next t := ⟨by decide, by decide, _, rfl⟩
theorem test_witness_ResetFromEveryState : (resetting t1Edge17).ports.rst = true := by decide
theorem test_witness_OutputsAfterReset :
    State.reset.AtReset ∧ State.reset.accepted = false ∧ (resetting State.reset).AtReset ∧ (resetting State.reset).ports.rst = true := by decide

theorem test_witness_EdgeRunsTheThreeParts :
    (resetting t1Edge17).ports.rst = true ∧ (presents ready 0x30#8 Operands.zero).Inv ∧ t1Edge0.Inv ∧ t1Edge17.Inv ∧ t1Edge66.Inv ∧
    (t1Edge0.seq, t1Edge0.dre, t1Edge0.txbuf.byteAt t1Edge0.idx.toNat) = (.load, true, some 0xDA#8) ∧ t1Edge17.dre = false ∧
    t1Edge66.seq = .waitc ∧ t1Edge17.ports.rst = false ∧ (∃ c, commandUnit (presents ready 0x30#8 Operands.zero) = .next c) ∧
    ∃ c, commandUnit t1Edge17 = .next c :=
  ⟨by decide, by decide, by decide, by decide, by decide, by decide, by decide, by decide, by decide, ⟨_, rfl⟩, _, rfl⟩

/-- A state that meets the invariant for each of the shifter's six cases, in R165's order: T1 after edges 1, 0, 62, 63, 17 and 65. -/
def shifterCases : List State :=
  [{ t1Edge0 with tdr := 0xDA#8, dre := false, idx := 1 }, t1Edge0, t1Edge62, { t1Edge62 with ph := 1 }, t1Edge17, t1Edge65]

theorem test_witness_ShifterCases :
    shifterCases.map State.shiftCase = [.startByte, .idle, .advancePhase, .nextBit, .nextByte, .endOfFrame] ∧
    shifterCases.all (fun s => decide (s.Inv ∧ s.ports.rst = false) && (after (commandUnit s)).isSome) = true := by decide

/-- One state for each clause of SequencerAtEveryEdge, with the lowest and the highest index in LOAD. -/
def sequencerCases : List State :=
  [t1Edge0, { t1Edge0 with idx := 3 }, t1Edge17, t1Edge66, t1Edge65, State.reset]

theorem test_witness_SequencerAtEveryEdge :
    sequencerCases.map (fun s => (s.ports.rst, s.seq, s.dre, s.idx.toNat, s.txc)) =
      [(false, .load, true, 0, false), (false, .load, true, 3, false), (false, .load, false, 2, false), (false, .waitc, true, 4, true),
       (false, .waitc, true, 4, false), (false, .idle, true, 0, false)] ∧
    sequencerCases.all (fun s => (after (edge s)).isSome) = true := by decide
theorem test_witness_SerialClockAndData :
    ({ t1Edge17 with tsr := 0x40#8, bitn := 0 } : State).act = true ∧ State.reset.act = false ∧
    (after (edge { t1Edge17 with tsr := 0x40#8, bitn := 0 })).map (fun t => decide (t.sdo ≠ ({ t1Edge17 with tsr := 0x40#8, bitn := 0 } : State).sdo)) =
      some true := by decide
theorem test_witness_InvariantAtReset : State.reset.AtReset := by decide
theorem test_witness_InvariantKeptByEveryStep :
    t1Edge0.Inv ∧ t1Edge17.Inv ∧ t1Edge65.Inv ∧ t1Edge66.Inv ∧ ∃ t, step t1Edge17 = .next t :=
  ⟨by decide, by decide, by decide, by decide, _, rfl⟩
theorem test_witness_Reachable : Reachable State.reset := .reset _ (by decide)
theorem test_witness_ReachableStatesMeetR42 : ∃ t, step State.reset = .next t ∧ Reachable t :=
  ⟨_, rfl, .step State.reset _ (.reset _ (by decide)) rfl⟩
theorem test_witness_ReservedValuesAreNeverReached : Reachable { State.reset with ports := Ports.idle, phase := .done, program := [.reset] } :=
  .host State.reset _ _ _ (.reset _ (by decide))
theorem test_witness_WritesAreExclusive :
    (∃ c, commandUnit t1Edge17 = .next c) ∧ t1Edge17.seq ≠ .idle ∧ t1Edge17.dre = false ∧ State.reset.seq = .idle ∧ State.reset.dre = true :=
  ⟨⟨_, rfl⟩, by decide, by decide, by decide, by decide⟩
theorem test_witness_ParametersNeverChange : ∃ t, step ready = .next t := ⟨_, rfl⟩
theorem test_witness_FaultStopsCommands :
    ({ ready with fault := 4 } : State).fault ≠ 0 ∧ ({ ready with fault := 4 } : State).ports.rst = false ∧ ({ ready with fault := 4 } : State).Inv := by
  decide
theorem test_witness_DivisorIsWrittenOnce_reset : (resetting ready).ports.rst = true ∧ ∃ t, edge (resetting ready) = .next t := ⟨by decide, _, rfl⟩
theorem test_witness_CompletionFlagRule_reset : (resetting t1Edge65).Inv ∧ (resetting t1Edge65).ports.rst = true := by decide
theorem test_witness_EncodeThenTransmit_word :
    ({ presents State.reset 0x20#8 Operands.zero with wvalid := true } : State).accepted = true ∧
    ({ presents State.reset 0x20#8 Operands.zero with wvalid := true } : State).Inv := by decide
theorem test_witness_DivisorIsWrittenOnce :
    ready.initd = true ∧ ready.ports.rst = false ∧ (∃ t, edge ready = .next t) ∧
    ∃ t, edge (presents State.reset 0x20#8 (Operands.forInit 4)) = .next t ∧ t.div ≠ State.reset.div :=
  ⟨by decide, by decide, ⟨_, rfl⟩, _, rfl, by decide⟩
theorem test_witness_WordIsWrittenOnlyByEncode :
    (presents ready 0x18#8 Operands.zero).accepted = true ∧ IsEncWord 0x18#8 ∧ ¬ IsEncWord 0x30#8 ∧ ready.wvalid = true ∧
    ∃ t, edge (presents ready 0x18#8 Operands.zero) = .next t := ⟨by decide, by decide, by decide, by decide, _, rfl⟩
theorem test_witness_CompletionFlagRule :
    (t1Edge65.Inv ∧ t1Edge65.act = true ∧ t1Edge65.ph.toNat = 2 * t1Edge65.halfPeriod - 1 ∧ t1Edge65.bitn = 7 ∧ t1Edge65.dre = true) ∧
    (∃ t, FrameStarts (presents ready 0x30#8 Operands.zero) t) ∧ t1Edge17.Inv ∧ t1Edge17.dre = false ∧ t1Edge17.accepted = false :=
  ⟨by decide, ⟨_, by decide, rfl, by decide⟩, by decide, by decide, by decide⟩
theorem test_witness_BusyFreezesTheCommandRegisters : t1Edge17.busy = true ∧ t1Edge17.ports.rst = false ∧ ∃ t, edge t1Edge17 = .next t :=
  ⟨by decide, by decide, _, rfl⟩
theorem test_witness_EncodeThenTransmitNeedsNoGap :
    (presents ready 0x14#8 Operands.zero).Inv ∧ (presents ready 0x14#8 Operands.zero).accepted = true ∧ IsEncWord 0x14#8 ∧
    (∃ t, edge (presents ready 0x14#8 Operands.zero) = .next t) ∧ (presents State.reset 0x20#8 Operands.zero).Inv ∧
    (presents State.reset 0x20#8 Operands.zero).accepted = true ∧ ∃ t, edge (presents State.reset 0x20#8 Operands.zero) = .next t :=
  ⟨by decide, by decide, by decide, ⟨_, rfl⟩, by decide, by decide, _, rfl⟩
theorem test_witness_HostLinesFinish :
    (presents ready 0x14#8 Operands.zero).phase = .hold ∧ (presents ready 0x14#8 Operands.zero).accepted = true ∧
    (after (edge (presents ready 0x14#8 Operands.zero))).map State.busy = some false ∧
    (after (edge (presents ready 0x30#8 Operands.zero))).map State.busy = some true ∧
    (after (edge { t1Edge66 with phase := .frame })).map State.busy = some false ∧
    (after (edge { t1Edge65 with phase := .frame })).map State.busy = some true ∧
    (after (edge { ready with phase := .edges 2 })).isSome = true ∧ (after (edge { ready with phase := .edges 1 })).isSome = true := by decide

/-- One program for each kind of line a host can start. -/
def hostPrograms : List (List HostLine) :=
  [[], [.present 0x20#8 (Operands.forInit 4)], [.wait 0], [.wait 1], [.wait 3], [.reset], [.drive Ports.idle]]

theorem test_witness_HostLinesFinish_start :
    hostPrograms.map (fun p => ({ ready with program := p } : State).startNextLine.phase) =
      [.done, .hold, .done, .edges 1, .edges 3, .edges 1, .edges 1] ∧
    (after (edge { presents t1Edge17 0x00#8 Operands.zero with phase := .hold })).isSome = true ∧
    ({ presents t1Edge17 0x00#8 Operands.zero with phase := .hold } : State).accepted = false := by decide

/-- The acceptance of XMIT.E in a ready block, DIV = 1. -/
def xmitAccepted : State := presents ready 0x30#8 Operands.zero

theorem test_witness_FrameTiming : xmitAccepted.Inv ∧ ∃ t0, FrameStarts xmitAccepted t0 ∧ t0.halfPeriod = 2 :=
  ⟨by decide, _, ⟨by decide, rfl, by decide⟩, by decide⟩
theorem test_witness_frame_ports :
    (∀ p ∈ List.replicate 131 Ports.idle, p.rst = false) ∧ (List.replicate 131 Ports.idle).length = 3 + 64 * 2 :=
  ⟨fun p hp => by rw [List.eq_of_mem_replicate hp]; rfl, by simp⟩
theorem test_witness_WireSequence :
    xmitAccepted.ports.cmd = 0x30#8 ∧ xmitAccepted.word = encodeWord Params.default 0x5B#8 1#2 0x760FF#19 3#2 .oddAuto := by decide

end Sys2Proof.Tests
end

section
/-! PROOFS. The rules of the state (10_state.md section 3): what an edge can do to DIV and INITD, to WORD and WVALID, and to TXC. -/

namespace Sys2Proof.Machine

/-! ### What an edge answers -/

theorem edge_next_of_rst {s t : State} (h : edge s = .next t) (hr : s.ports.rst = true) : t = s.resetEdge :=
  (next_inj.mp (edge_reset s hr ▸ h)).symm

theorem edge_next_of_not_rst {s t : State} (h : edge s = .next t) (hr : s.ports.rst = false) :
    ∃ c, commandUnit s = .next c ∧ t = mergeWrites s c := by
  obtain ⟨c, hc, -⟩ := commandUnit_writes s
  exact ⟨c, hc, (next_inj.mp (edge_of_commandUnit s c hr hc ▸ h)).symm⟩

/-- The sequencer and the shifter write none of the command unit's registers (R198). -/
theorem mergeWrites_sameCommandRegisters (s c : State) : SameCommandRegisters c (mergeWrites s c) := by
  obtain ⟨-, -, -, hword, hwvalid, hdiv, hinitd, hfault, htxbuf, -, -⟩ := shifter_keeps s (sequencer s c)
  obtain ⟨-, -, -, -, -, kword, kwvalid, kdiv, kinitd, kfault, ktxbuf, -, -⟩ := sequencer_keeps s c
  rw [mergeWrites, settleTxc_keeps]
  exact ⟨hdiv.trans kdiv, hinitd.trans kinitd, hword.trans kword, hwvalid.trans kwvalid, hfault.trans kfault, htxbuf.trans ktxbuf⟩

/-! ### What the command unit writes, and for which command -/

/-- The encode commands' words are the ones that decode to an encode command (R72, R75). -/
theorem isEncWord_iff_decode (w : CmdWord) :
    IsEncWord w ↔ (∃ mb, decode w = some (.encMan mb)) ∨ decode w = some .encOdd ∨ decode w = some .encEven := by
  revert w; decide

theorem commandUnit_of_decode {s : State} {i : Instr} (ha : s.accepted = true) (hi : decode s.ports.cmd = some i) :
    commandUnit s = exec i s := by simp [commandUnit, ha, hi]

/-- The first INIT configures the block (R155). -/
theorem commandUnit_init {s : State} (ha : s.accepted = true) (hi : decode s.ports.cmd = some .init) (hn : s.initd = false) :
    commandUnit s = .next (s.configure s.ports.ops.inDiv) := by
  simp [commandUnit_of_decode ha hi, exec, execInit, hn]

/-- Every encode command writes its word (R112 to R114). -/
theorem commandUnit_encode {s : State} (ha : s.accepted = true) (hw : IsEncWord s.ports.cmd) :
    ∃ pol, commandUnit s = .next (s.writeWord (s.encodedOperands pol)) := by
  rcases (isEncWord_iff_decode _).mp hw with ⟨mb, hi⟩ | hi | hi
  · exact ⟨.manual mb, commandUnit_of_decode ha hi⟩
  · exact ⟨.oddAuto, commandUnit_of_decode ha hi⟩
  · exact ⟨.evenAuto, commandUnit_of_decode ha hi⟩

/-- `CommandWrites` together with the command behind the write. -/
inductive CommandUnitWrites (s : State) : State → Prop where
  | nothing : CommandUnitWrites s s
  | word (pol : Policy) : s.accepted = true → IsEncWord s.ports.cmd → CommandUnitWrites s (s.writeWord (s.encodedOperands pol))
  | divisor : s.accepted = true → decode s.ports.cmd = some .init → s.initd = false →
      CommandUnitWrites s (s.configure s.ports.ops.inDiv)
  | frame (f : Frame) : s.accepted = true → s.initd = true → CommandUnitWrites s (s.startFrame f)
  | fault (code : FaultCode) : s.accepted = true → CommandUnitWrites s (s.raise code)

/-- The command unit's result is one of the five kinds, by the command it accepted (R190, R193). -/
theorem commandUnit_cases {s c : State} (h : commandUnit s = .next c) : CommandUnitWrites s c := by
  by_cases ha : s.accepted = true
  case neg =>
    obtain rfl : s = c := by simpa [commandUnit, ha, next_inj] using h
    exact .nothing
  have hw := isEncWord_iff_decode s.ports.cmd
  cases hd : decode s.ports.cmd with
  | none =>
    obtain rfl : s.raise .illegal = c := by simpa [commandUnit, ha, hd, execIllegal, next_inj] using h
    exact .fault _ ha
  | some i =>
    rw [commandUnit_of_decode ha hd] at h
    cases i with
    | nop => exact next_inj.mp h ▸ .nothing
    | encMan mb => exact next_inj.mp h ▸ .word (.manual mb) ha (hw.mpr (.inl ⟨mb, hd⟩))
    | encOdd => exact next_inj.mp h ▸ .word .oddAuto ha (hw.mpr (.inr (.inl hd)))
    | encEven => exact next_inj.mp h ▸ .word .evenAuto ha (hw.mpr (.inr (.inr hd)))
    | init =>
      simp only [exec, execInit] at h
      split at h
      · exact next_inj.mp h ▸ .fault _ ha
      · next hn => exact next_inj.mp h ▸ .divisor ha hd (by simpa using hn)
    | xmitE =>
      simp only [exec, execXmitE] at h
      split at h
      · next hn =>
        split at h
        · exact next_inj.mp h ▸ .frame _ ha hn
        · exact next_inj.mp h ▸ .fault _ ha
      · exact next_inj.mp h ▸ .fault _ ha
    | xmitP =>
      simp only [exec, execXmitP] at h
      split at h
      · next hn => exact next_inj.mp h ▸ .frame _ ha hn
      · exact next_inj.mp h ▸ .fault _ ha

/-- A busy block accepts no command, so the command unit writes nothing (R191). -/
theorem commandUnit_of_busy {s c : State} (h : commandUnit s = .next c) (hq : s.seq ≠ .idle) : c = s := by
  obtain ⟨c', hc', hkept, -⟩ := commandUnit_writes s
  rw [h, next_inj] at hc'
  exact hc'.trans (hkept (by simp [State.accepted, State.cmdReady, hq]))

/-- DIV and INITD go through the command unit's writes only by the first INIT (R27). -/
theorem CommandUnitWrites.divisor_kept {s c : State} (h : CommandUnitWrites s c) :
    c.initd = s.initd ∧ c.div = s.div ∨
    s.accepted = true ∧ decode s.ports.cmd = some .init ∧ s.initd = false ∧ c.initd = true ∧ c.div = s.ports.ops.inDiv := by
  cases h with
  | divisor ha hi hn => exact .inr ⟨ha, hi, hn, rfl, rfl⟩
  | nothing | word | frame | fault => exact .inl ⟨rfl, rfl⟩

/-- WORD and WVALID change only by an encode command, which sets WVALID (R29). -/
theorem CommandUnitWrites.word_kept {s c : State} (h : CommandUnitWrites s c) :
    c.word = s.word ∧ c.wvalid = s.wvalid ∨ s.accepted = true ∧ IsEncWord s.ports.cmd ∧ c.wvalid = true := by
  cases h with
  | word pol ha hw => exact .inr ⟨ha, hw, rfl⟩
  | nothing | divisor | frame | fault => exact .inl ⟨rfl, rfl⟩

/-- TXC and SEQ change only where the command unit starts a frame (R38, R156, R157). -/
theorem CommandUnitWrites.txc_kept {s c : State} (h : CommandUnitWrites s c) :
    c.txc = s.txc ∧ c.seq = s.seq ∨ s.accepted = true ∧ c.txc = false ∧ c.seq = .load := by
  cases h with
  | frame f ha => exact .inr ⟨ha, rfl, rfl⟩
  | nothing | word | divisor | fault => exact .inl ⟨rfl, rfl⟩

/-! ### The divisor and the word -/

/-- Settles O52: the edge keeps what the command unit left in DIV and INITD, and only the first INIT writes them there. -/
theorem divisorIsWrittenOnce : Obligations.DivisorIsWrittenOnce := by
  unfold Obligations.DivisorIsWrittenOnce
  intro s t h
  cases hr : s.ports.rst with
  | true =>
    obtain rfl := edge_next_of_rst h hr
    simp [State.accepted, hr]
  | false =>
    obtain ⟨c, hc, rfl⟩ := edge_next_of_not_rst h hr
    obtain ⟨hdiv, hinitd, -⟩ := mergeWrites_sameCommandRegisters s c
    rw [hdiv, hinitd]
    refine ⟨by simp, fun _ hn => ?_, fun ha hi => ?_, fun _ hne => ?_⟩
    · rcases (commandUnit_cases hc).divisor_kept with ⟨ki, kd⟩ | ⟨-, -, hn', -⟩
      · exact ⟨ki.trans hn, kd⟩
      · simp [hn] at hn'
    · rcases (commandUnit_cases hc).divisor_kept with ⟨ki, -⟩ | ⟨-, -, -, hset, -⟩
      · cases hn : s.initd with
        | true => exact ki.trans hn
        | false =>
          rw [commandUnit_init ha hi hn, next_inj] at hc
          subst hc; rfl
      · exact hset
    · rcases (commandUnit_cases hc).divisor_kept with ⟨ki, kd⟩ | hinit
      · simp [ki, kd] at hne
      · exact hinit

/-- Settles O53: the edge keeps what the command unit left in WORD and WVALID, and only an encode command writes them there. -/
theorem wordIsWrittenOnlyByEncode : Obligations.WordIsWrittenOnlyByEncode := by
  unfold Obligations.WordIsWrittenOnlyByEncode
  intro s t h
  cases hr : s.ports.rst with
  | true =>
    obtain rfl := edge_next_of_rst h hr
    simp [State.accepted, hr]
  | false =>
    obtain ⟨c, hc, rfl⟩ := edge_next_of_not_rst h hr
    obtain ⟨-, -, hword, hwvalid, -⟩ := mergeWrites_sameCommandRegisters s c
    rw [hword, hwvalid]
    refine ⟨by simp, fun ha hw => ?_, fun _ hn => ?_, fun _ hv => ?_⟩
    · obtain ⟨pol, he⟩ := commandUnit_encode ha hw
      rw [he, next_inj] at hc
      subst hc; rfl
    · rcases (commandUnit_cases hc).word_kept with hkept | ⟨ha, hw, -⟩
      · exact hkept
      · exact absurd ⟨ha, hw⟩ hn
    · rcases (commandUnit_cases hc).word_kept with ⟨-, kv⟩ | ⟨-, -, hset⟩
      · exact kv.trans hv
      · exact hset

/-! ### The completion flag -/

/-- The shifter writes TXC where a frame ends and nowhere else (R149, R165). -/
theorem shifter_txc (s c : State) : (shifter s c).txc = if s.shiftCase = .endOfFrame then true else c.txc := by
  unfold shifter
  cases s.shiftCase <;> rfl

/-- Where no byte shifts while the sequencer is idle, TXC after an edge is the shifter's over the command unit's (R198). -/
theorem mergeWrites_txc (s c : State) (h : s.seq = .idle → s.act = false) :
    (mergeWrites s c).txc = if s.shiftCase = .endOfFrame then true else c.txc := by
  obtain ⟨-, -, -, -, htxc, -⟩ := sequencer_keeps s c
  rw [mergeWrites_eq s c h, shifter_txc, htxc]

/-- The last edge of a frame's last bit period, with the phase as a number (R149); the phase never passes its last value (R42). -/
theorem shiftCase_eq_endOfFrame_iff {s : State} (h : s.FactsOfR42) :
    s.shiftCase = .endOfFrame ↔ s.act = true ∧ s.ph.toNat = 2 * s.halfPeriod - 1 ∧ s.bitn = 7 ∧ s.dre = true := by
  simp only [State.halfPeriod]
  constructor
  · intro he
    have ht := shiftCase_tests s
    rw [he] at ht
    obtain ⟨ha, hp, hb, hd⟩ := ht
    obtain ⟨-, hact, -⟩ := h
    have hle := (hact ha).2
    exact ⟨ha, by omega, hb, hd⟩
  · rintro ⟨ha, hp, hb, hd⟩
    exact shiftCase_endOfFrame s ha (by omega) hb hd

/-- R42's third fact. -/
theorem factsOfR42_idle {s : State} (h : s.FactsOfR42) (hq : s.seq = .idle) : s.act = false ∧ s.dre = true := by
  obtain ⟨-, -, hidle, -⟩ := h
  exact hidle hq

/-- An accepted command finds the sequencer and the shifter idle, so the edge is the command unit's write alone (R191, R42, R197). -/
theorem mergeWrites_of_accepted {s : State} (c : State) (h : s.FactsOfR42) (ha : s.accepted = true) : mergeWrites s c = c := by
  obtain ⟨-, -, hseq, -⟩ := (accepted_iff s).mp ha
  obtain ⟨hact, hdre⟩ := factsOfR42_idle h hseq
  exact mergeWrites_idle s c hseq hact hdre

/-- Settles O54: TXC after an edge is the shifter's where a frame ends, else the command unit's, which writes it only where a frame starts. -/
theorem completionFlagRule : Obligations.CompletionFlagRule := by
  unfold Obligations.CompletionFlagRule
  intro s t hinv h
  have hR42 : s.FactsOfR42 := hinv.1
  cases hr : s.ports.rst with
  | true =>
    obtain rfl := edge_next_of_rst h hr
    simp [FrameStarts, State.accepted, hr]
  | false =>
    obtain ⟨c, hc, rfl⟩ := edge_next_of_not_rst h hr
    have htxc := mergeWrites_txc s c fun hq => (factsOfR42_idle hR42 hq).1
    simp only [shiftCase_eq_endOfFrame_iff hR42] at htxc
    have hkept := (commandUnit_cases hc).txc_kept
    refine ⟨by simp, fun _ ha hp hb hd => ?_, ?_, fun _ hend hstart => ?_⟩
    · rw [htxc, if_pos ⟨ha, hp, hb, hd⟩]
    · rintro ⟨ha, -, hload⟩
      rw [mergeWrites_of_accepted c hR42 ha] at hload ⊢
      obtain ⟨-, -, hidle, -⟩ := (accepted_iff s).mp ha
      rcases hkept with ⟨-, hseq⟩ | ⟨-, hclear, -⟩
      · simp [hseq, hidle] at hload
      · exact hclear
    · rw [htxc, if_neg hend]
      rcases hkept with ⟨hsame, -⟩ | ⟨ha, -, hload⟩
      · exact hsame
      · exact absurd ⟨ha, h, by rwa [mergeWrites_of_accepted c hR42 ha]⟩ hstart

end Sys2Proof.Machine
end

section
/-! PROOFS. The invariant of 10_state.md section 4 (R42 with the facts about loading): what it says in each state of the sequencer, that every
edge and every step keep it, and that it holds of every reachable state. -/

namespace Sys2Proof.Machine

/-! ### The invariant by the sequencer's state -/

/-- The shifter's counters in range, as R42's first two facts say it: at rest while no byte shifts, a phase of the bit period while one does. -/
def State.CountersInRange (s : State) : Prop :=
  (s.act = false → s.ph = 0 ∧ s.bitn = 0) ∧ (s.act = true → s.ph.toNat ≤ 2 * s.div.toNat + 1)

/-- In IDLE the shifter is at rest and nothing waits to be sent; the facts about the other states say nothing. -/
theorem inv_idle_iff {s : State} (hq : s.seq = .idle) :
    s.Inv ↔ s.act = false ∧ s.dre = true ∧ s.ph = 0 ∧ s.bitn = 0 ∧ s.fault.toNat ≤ 4 := by
  simp only [State.Inv, State.FactsOfR42, State.LoadingFacts, hq]
  grind

/-- In LOAD a frame is on its way: no completion flag, and a byte still to load. -/
theorem inv_load_iff {s : State} (hq : s.seq = .load) :
    s.Inv ↔ s.initd = true ∧ s.fault = 0 ∧ s.idx.toNat ≤ 3 ∧ s.txc = false ∧ s.CountersInRange ∧
      (s.act = true → s.dre = true → s.ph = 0 ∧ s.bitn = 0) := by
  simp only [State.Inv, State.FactsOfR42, State.LoadingFacts, State.CountersInRange, hq]
  grind

/-- In WAITC all four bytes are loaded, and the completion flag says that none is left to send. -/
theorem inv_waitc_iff {s : State} (hq : s.seq = .waitc) :
    s.Inv ↔ s.initd = true ∧ s.fault = 0 ∧ s.idx.toNat = 4 ∧ s.CountersInRange ∧
      (s.txc = true ↔ s.act = false ∧ s.dre = true) := by
  simp only [State.Inv, State.FactsOfR42, State.LoadingFacts, State.CountersInRange, hq]
  grind

/-! ### The shifter over a busy sequencer -/

/-- The shifter keeps its counters in range, over any writes of the other processes (R145 to R150). -/
theorem shifter_countersInRange {s c : State} (h : s.CountersInRange) (hdiv : c.div = s.div) (hact : c.act = s.act) (hph : c.ph = s.ph)
    (hbitn : c.bitn = s.bitn) : (shifter s c).CountersInRange := by
  have htests := shiftCase_tests s
  unfold shifter
  unfold State.CountersInRange at h ⊢
  cases hcase : s.shiftCase <;> rw [hcase] at htests
  case idle => simpa only [hdiv, hact, hph, hbitn] using h
  case advancePhase =>
    obtain ⟨ha, hp⟩ := htests
    simp [hact, ha, hdiv]
    omega
  case startByte | nextBit | nextByte | endOfFrame => simp [hact, htests]

/-- The shifter frees the shift source only when it takes the byte from it (R145, R148). -/
theorem shifter_dre_of_dre {s : State} (c : State) (h : s.dre = true) : (shifter s c).dre = c.dre := by
  have htests := shiftCase_tests s
  unfold shifter
  cases hcase : s.shiftCase <;> rw [hcase] at htests
  -- The other four cases do not write DRE.
  case startByte | nextByte => simp [h] at htests

/-- A frame does not end where a byte is waiting (R149). -/
theorem shiftCase_ne_endOfFrame_of_waiting {s : State} (h : s.dre = false) : s.shiftCase ≠ .endOfFrame := by
  intro hcase
  have htests := shiftCase_tests s
  simp [hcase, h] at htests

/-- A frame does not end where a byte has just started (R149). -/
theorem shiftCase_ne_endOfFrame_of_started {s : State} (h : s.act = true → s.ph = 0) : s.shiftCase ≠ .endOfFrame := by
  intro hcase
  have htests := shiftCase_tests s
  rw [hcase] at htests
  obtain ⟨ha, hp, -⟩ := htests
  simp [h ha] at hp

/-! ### Every edge keeps the invariant -/

/-- The four faults' codes are 1 to 4 (R211). -/
theorem faultCode_toNat_le (code : FaultCode) : code.code.toNat ≤ 4 := by cases code <;> decide

/-- An accepted command's writes keep the invariant (R193). -/
theorem CommandUnitWrites.keeps_inv {s c : State} (h : CommandUnitWrites s c) (hq : s.seq = .idle) (hinv : s.Inv) : c.Inv := by
  obtain ⟨hact, hdre, hph, hbitn, hfault⟩ := (inv_idle_iff hq).mp hinv
  cases h with
  | nothing => exact hinv
  | word pol => exact (inv_idle_iff (s := s.writeWord _) hq).mpr ⟨hact, hdre, hph, hbitn, hfault⟩
  | divisor => exact (inv_idle_iff (s := s.configure _) hq).mpr ⟨hact, hdre, hph, hbitn, hfault⟩
  | fault code => exact (inv_idle_iff (s := s.raise code) hq).mpr ⟨hact, hdre, hph, hbitn, faultCode_toNat_le code⟩
  | frame f ha hinitd =>
    obtain ⟨-, -, -, hf⟩ := (accepted_iff s).mp ha
    exact (inv_load_iff rfl).mpr ⟨hinitd, hf, by simp, rfl, ⟨fun _ => ⟨hph, hbitn⟩, by simp [hact]⟩, by simp [hact]⟩

/-- The sequencer and the shifter keep the invariant at an edge that loads a byte (R152). -/
theorem inv_of_loadByte {s : State} (hq : s.seq = .load) (hd : s.dre = true) (hinv : s.Inv) : (shifter s (loadByte s s)).Inv := by
  obtain ⟨hinitd, hfault, hidx, htxc, hcounters, hstart⟩ := (inv_load_iff hq).mp hinv
  obtain ⟨-, kidx, kseq, -, -, -, kinitd, kfault, -⟩ := shifter_keeps s (loadByte s s)
  have ucounters : (shifter s (loadByte s s)).CountersInRange := shifter_countersInRange hcounters rfl rfl rfl rfl
  have udre : (shifter s (loadByte s s)).dre = false := shifter_dre_of_dre _ hd
  have utxc : (shifter s (loadByte s s)).txc = false := by
    rw [shifter_txc, if_neg (shiftCase_ne_endOfFrame_of_started fun ha => (hstart ha hd).1)]
    exact htxc
  generalize shifter s (loadByte s s) = u at *
  have uidx : u.idx.toNat = s.idx.toNat + 1 := by
    rw [kidx]
    simp [loadByte]
    omega
  have hlast : s.idx = 3#3 ↔ s.idx.toNat = 3 := by simp [← BitVec.toNat_inj]
  by_cases h3 : s.idx.toNat = 3
  · have useq : u.seq = .waitc := by rw [kseq]; simp [loadByte, hlast, h3]
    exact (inv_waitc_iff useq).mpr ⟨kinitd.trans hinitd, kfault.trans hfault, by omega, ucounters, by simp [utxc, udre]⟩
  · have useq : u.seq = .load := by rw [kseq]; simp [loadByte, hlast, h3, hq]
    exact (inv_load_iff useq).mpr ⟨kinitd.trans hinitd, kfault.trans hfault, by omega, utxc, ucounters, by simp [udre]⟩

/-- The shifter keeps the invariant while the sequencer waits for room in the shift source (R152). -/
theorem inv_of_load_wait {s : State} (hq : s.seq = .load) (hd : s.dre = false) (hinv : s.Inv) : (shifter s s).Inv := by
  obtain ⟨hinitd, hfault, hidx, htxc, hcounters, -⟩ := (inv_load_iff hq).mp hinv
  obtain ⟨-, kidx, kseq, -, -, -, kinitd, kfault, -⟩ := shifter_keeps s s
  have utxc : (shifter s s).txc = false := by
    rw [shifter_txc, if_neg (shiftCase_ne_endOfFrame_of_waiting hd)]
    exact htxc
  have ustart : (shifter s s).dre = true → (shifter s s).ph = 0 ∧ (shifter s s).bitn = 0 := by
    unfold shifter
    cases hcase : s.shiftCase
    case startByte | nextByte | endOfFrame => simp
    case idle | advancePhase | nextBit => simp [hd]
  exact (inv_load_iff (kseq.trans hq)).mpr ⟨kinitd.trans hinitd, kfault.trans hfault, by rwa [kidx], utxc,
    shifter_countersInRange hcounters rfl rfl rfl rfl, fun _ => ustart⟩

/-- The shifter keeps the invariant while the sequencer waits for the completion flag, and sets it exactly where nothing is left to send
(R149, R153). -/
theorem inv_of_waitc_wait {s : State} (hq : s.seq = .waitc) (hc : s.txc = false) (hinv : s.Inv) : (shifter s s).Inv := by
  obtain ⟨hinitd, hfault, hidx, hcounters, hdone⟩ := (inv_waitc_iff hq).mp hinv
  obtain ⟨-, kidx, kseq, -, -, -, kinitd, kfault, -⟩ := shifter_keeps s s
  have udone : (shifter s s).txc = true ↔ (shifter s s).act = false ∧ (shifter s s).dre = true := by
    have htests := shiftCase_tests s
    unfold shifter
    cases hcase : s.shiftCase <;> rw [hcase] at htests
    case idle => exact hdone
    case startByte | advancePhase | nextBit | nextByte | endOfFrame => simp [htests, hc]
  exact (inv_waitc_iff (kseq.trans hq)).mpr ⟨kinitd.trans hinitd, kfault.trans hfault, by rwa [kidx],
    shifter_countersInRange hcounters rfl rfl rfl rfl, udone⟩

/-- The edge after the completion flag keeps the invariant: the sequencer goes idle and the shifter is idle already (R153). -/
theorem inv_of_waitc_done {s : State} (hq : s.seq = .waitc) (hc : s.txc = true) (hinv : s.Inv) :
    (shifter s { s with seq := .idle }).Inv := by
  obtain ⟨-, hfault, -, ⟨hrest, -⟩, hdone⟩ := (inv_waitc_iff hq).mp hinv
  obtain ⟨hact, hdre⟩ := hdone.mp hc
  obtain ⟨hph, hbitn⟩ := hrest hact
  rw [shifter, shiftCase_idle s hact hdre]
  exact (inv_idle_iff rfl).mpr ⟨hact, hdre, hph, hbitn, by simp [hfault]⟩

/-- Every register at its reset value meets the invariant (R240). -/
theorem resetEdge_inv (s : State) : s.resetEdge.Inv := (inv_idle_iff rfl).mpr ⟨rfl, rfl, rfl, rfl, by simp⟩

/-- Every edge keeps the invariant: by the sequencer's state before it. -/
theorem edge_keeps_inv {s t : State} (hinv : s.Inv) (h : edge s = .next t) : t.Inv := by
  cases hr : s.ports.rst with
  | true => exact edge_next_of_rst h hr ▸ resetEdge_inv s
  | false =>
    obtain ⟨c, hc, rfl⟩ := edge_next_of_not_rst h hr
    cases hq : s.seq with
    | idle =>
      obtain ⟨hact, hdre⟩ := factsOfR42_idle hinv.1 hq
      rw [mergeWrites_idle s c hq hact hdre]
      exact (commandUnit_cases hc).keeps_inv hq hinv
    | load =>
      rw [commandUnit_of_busy hc (by simp [hq]), mergeWrites_busy s (by simp [hq])]
      cases hd : s.dre with
      | true => rw [sequencer_load s s hq hd]; exact inv_of_loadByte hq hd hinv
      | false => rw [sequencer_load_wait s s hq hd]; exact inv_of_load_wait hq hd hinv
    | waitc =>
      rw [commandUnit_of_busy hc (by simp [hq]), mergeWrites_busy s (by simp [hq])]
      cases hd : s.txc with
      | true => rw [sequencer_waitc s s hq hd]; exact inv_of_waitc_done hq hd hinv
      | false => rw [sequencer_waitc_wait s s hq hd]; exact inv_of_waitc_wait hq hd hinv

/-! ### Every step, and every reachable state -/

/-- The host's side of a step touches no register, and the invariant speaks of registers only (R81). -/
theorem driver_keeps_inv (s : State) {u : State} (h : u.Inv) : (driver s u).Inv := by
  rcases driver_cases s u with e | e | ⟨n, e⟩ | e <;> rw [e] <;> exact h

theorem step_keeps_inv {s t : State} (hinv : s.Inv) (h : step s = .next t) : t.Inv := by
  obtain ⟨u, hu, rfl⟩ := (step_next_iff s t).mp h
  exact driver_keeps_inv s (edge_keeps_inv hinv hu)

/-- The invariant holds in every state a block that was reset can reach, under any host. -/
theorem reachable_inv {s : State} (h : Reachable s) : s.Inv := by
  induction h with
  | reset s hs => exact hs ▸ resetEdge_inv s
  | step s t _ hst ih => exact step_keeps_inv ih hst
  | host s p ph lines _ ih => exact ih

/-- Settles O48: R42's seven facts are part of the invariant, which every step keeps. -/
theorem reachableStatesMeetR42 : Obligations.ReachableStatesMeetR42 := by
  unfold Obligations.ReachableStatesMeetR42
  exact fun s hs => (reachable_inv hs).1

end Sys2Proof.Machine
end

section
/-! PROOFS. The byte order of the 32-bit ports (20_memory.md section 3): a port carries a frame's bytes one after the other, byte 0 at the
top, so the frame is read back whole. -/

namespace Sys2Proof.Machine

/-- A port shows `{B0, B1, B2, B3}` (R22). -/
theorem Frame.toWord_eq_append (f : Frame) : f.toWord = f.b0 ++ f.b1 ++ f.b2 ++ f.b3 := by
  have happend : (f.b0 ++ f.b1 ++ f.b2 ++ f.b3).setWidth 32 = f.toWord :=
    BitVec.setWidth_append_append_append_eq_shiftLeft_setWidth_or
  rw [← happend, BitVec.setWidth_eq]

/-- The bits of a frame's port word, from byte 3 at the bottom up (R56). -/
theorem Frame.toWord_bit (f : Frame) (i : Nat) :
    f.toWord.getLsbD i =
      if i < 8 then f.b3.getLsbD i
      else if i < 16 then f.b2.getLsbD (i - 8)
      else if i < 24 then f.b1.getLsbD (i - 16)
      else f.b0.getLsbD (i - 24) := by
  simp only [toWord_eq_append, BitVec.getLsbD_append]
  grind

/-- The bytes read off a port are the bytes of the frame it shows (R56). -/
@[simp] theorem Frame.ofWord_toWord (f : Frame) : Frame.ofWord f.toWord = f := by
  rw [ofWord]
  congr 1
  -- Bit i of each byte's slice falls in that byte's own range of `toWord_bit`.
  all_goals
    ext i hi
    simp only [BitVec.getElem_extractLsb', toWord_bit]
    grind

/-- After INIT, XMIT.P starts the frame that `in_tx` carries (R157). -/
theorem exec_xmitP_of_initd {s : State} (hi : s.initd = true) :
    exec .xmitP s = .next (s.startFrame (Frame.ofWord s.ports.ops.inTx)) := by
  simp [exec, execXmitP, hi]

/-- Settles O17: the four slices of a port are `Frame.ofWord`, which reads a shown frame back and is what XMIT.P puts in the buffer. -/
theorem portByteOrder : Obligations.PortByteOrder := by
  unfold Obligations.PortByteOrder
  refine ⟨fun f => ?_, fun _ => rfl, fun s hi => ⟨_, exec_xmitP_of_initd hi, rfl, rfl, rfl, rfl⟩⟩
  have hread := f.ofWord_toWord
  exact ⟨congrArg Frame.b0 hread, congrArg Frame.b1 hread, congrArg Frame.b2 hread, congrArg Frame.b3 hread⟩

end Sys2Proof.Machine
end

section
/-! PROOFS. The packed word and the buffer field by field (30_encoding.md rules R83 to R86): the word is its fields one after the other, and
the buffer is the word's bytes, the last three reversed. -/

namespace Sys2Proof.Machine

/-! ### The packed word -/

/-- The bits of an encoded word under FULL, from the parity bit up (R83). -/
theorem encodeWord_full_bit (m : ParityMask) (label : Label) (sdi : Sdi) (data : Data) (ssm : Ssm) (pol : Policy) {i : Nat} (hi : i < 32) :
    (encodeWord ⟨.full, m⟩ label sdi data ssm pol).getLsbD i =
      if i = 0 then (parityBit m pol (pack .full label sdi data ssm)).getLsbD 0
      else if i < 3 then ssm.getLsbD (i - 1)
      else if i < 22 then data.getLsbD (i - 3)
      else if i < 24 then sdi.getLsbD (i - 22)
      else label.getLsbD (31 - i) := by
  rw [encodeWord_bit _ _ _ _ _ _ i hi]
  split
  · rfl
  · next h => rw [pack, packFull_bit _ _ _ _ i hi, if_neg h]

/-- R83's table: the fields one after the other fill the 32 bits. -/
theorem encodeWord_full_eq_append (m : ParityMask) (label : Label) (sdi : Sdi) (data : Data) (ssm : Ssm) (pol : Policy) :
    encodeWord ⟨.full, m⟩ label sdi data ssm pol =
      rev8 label ++ sdi ++ data ++ ssm ++ parityBit m pol (pack .full label sdi data ssm) := by
  refine BitVec.eq_of_getLsbD_eq fun i hi => ?_
  simp only [encodeWord_full_bit _ _ _ _ _ _ hi, BitVec.getLsbD_append, rev8_bit]
  grind

/-- R84's table: the fields one after the other, with bit 21 empty and one bit of `ssm`, fill the 32 bits. -/
theorem encodeWord_sourceLiteral_eq_append (m : ParityMask) (label : Label) (sdi : Sdi) (data : Data) (ssm : Ssm) (pol : Policy) :
    encodeWord ⟨.sourceLiteral, m⟩ label sdi data ssm pol =
      rev8 label ++ sdi ++ 0#1 ++ data ++ ssm.extractLsb' 0 1 ++ parityBit m pol (pack .sourceLiteral label sdi data ssm) := by
  refine BitVec.eq_of_getLsbD_eq fun i hi => ?_
  rw [encodeWord_bit _ _ _ _ _ _ i hi, pack, packLiteral_bit _ _ _ _ i hi]
  simp only [BitVec.getLsbD_append, rev8_bit, BitVec.getLsbD_extractLsb', BitVec.getLsbD_zero]
  grind

/-- Settles O10: each field is the slice of R83's or R84's table that it stands at. -/
theorem packedWordLayouts : Obligations.PackedWordLayouts := by
  unfold Obligations.PackedWordLayouts
  intro m label sdi data ssm pol
  rw [encodeWord_full_eq_append, encodeWord_sourceLiteral_eq_append]
  -- A slice of `x ++ y` that ends at or before the seam is one of `y`, and one that starts at or after it is one of `x`.
  simp (disch := omega) only [BitVec.extractLsb'_append_eq_of_add_le, BitVec.extractLsb'_append_eq_of_le, Nat.reduceSub,
    BitVec.extractLsb'_eq_self, and_self]

/-! ### The buffer -/

/-- Byte 0 is the word's top byte as it is (R85). -/
theorem serialize_b0_bit (w : Word32) {i : Nat} (hi : i < 8) : (serialize w).b0.getLsbD (7 - i) = w.getLsbD (31 - i) := by
  have hpos : 24 + (7 - i) = 31 - i := by omega
  have hlow : 7 - i < 8 := by omega
  simp only [serialize, BitVec.getLsbD_extractLsb', hpos, hlow, decide_true, Bool.true_and]

/-- A reversed slice of the word, read from its top bit down, is the word read upwards (R85, R101). -/
theorem rev8_slice_bit (w : Word32) (start : Nat) {i : Nat} (hi : i < 8) :
    (rev8 (w.extractLsb' start 8)).getLsbD (7 - i) = w.getLsbD (start + i) := by
  have hback : 7 - (7 - i) = i := by omega
  have hlow : 7 - i < 8 := by omega
  simp only [rev8_bit, BitVec.getLsbD_extractLsb', hback, hlow, hi, decide_true, Bool.true_and]

/-- Byte 1 from its top bit down is the word's bits 16 to 23 upwards (R85). -/
theorem serialize_b1_bit (w : Word32) {i : Nat} (hi : i < 8) : (serialize w).b1.getLsbD (7 - i) = w.getLsbD (16 + i) :=
  rev8_slice_bit w 16 hi

/-- Byte 2 from its top bit down is the word's bits 8 to 15 upwards (R85). -/
theorem serialize_b2_bit (w : Word32) {i : Nat} (hi : i < 8) : (serialize w).b2.getLsbD (7 - i) = w.getLsbD (8 + i) :=
  rev8_slice_bit w 8 hi

/-- Byte 3 from its top bit down is the word's bits 0 to 7 upwards (R85). -/
theorem serialize_b3_bit (w : Word32) {i : Nat} (hi : i < 8) : (serialize w).b3.getLsbD (7 - i) = w.getLsbD i :=
  (rev8_slice_bit w 0 hi).trans (by rw [Nat.zero_add])

/-- Settles O16: each buffer bit is a bit of the word (R85), which is a bit of a field (R83). -/
theorem bufferFieldPositions : Obligations.BufferFieldPositions := by
  unfold Obligations.BufferFieldPositions
  rintro m label sdi data ssm pol f rfl
  have hword := @encodeWord_full_bit m label sdi data ssm pol
  refine ⟨fun i hi => ?_, fun i hi => ?_, ?_, ?_, fun i hi => ?_, ?_, ?_, ?_, fun i hi => ?_⟩
  · rw [serialize_b0_bit _ hi, hword (by omega)]; grind
  · rw [serialize_b1_bit _ (by omega), hword (by omega)]; grind
  · exact (serialize_b1_bit _ (i := 6) (by omega)).trans (hword (by omega))
  · exact (serialize_b1_bit _ (i := 7) (by omega)).trans (hword (by omega))
  · rw [serialize_b2_bit _ hi, hword (by omega)]; grind
  · exact (serialize_b3_bit _ (i := 0) (by omega)).trans (hword (by omega))
  · exact (serialize_b3_bit _ (i := 1) (by omega)).trans (hword (by omega))
  · exact (serialize_b3_bit _ (i := 2) (by omega)).trans (hword (by omega))
  · have hpos : 4 - i = 7 - (3 + i) := by omega
    rw [hpos, serialize_b3_bit _ (by omega), hword (by omega)]; grind

/-- Settles O15: the bytes are `serialize`'s own, and byte 3 from its top bit down starts with the word's bit 0. -/
theorem bufferFormat : Obligations.BufferFormat := by
  unfold Obligations.BufferFormat
  exact fun w => ⟨rfl, rfl, rfl, rfl, serialize_b3_bit w (i := 0) (by omega)⟩

end Sys2Proof.Machine
end

section
/-! PROOFS. Decoding by the opcode table (30_encoding.md rules R75 and R77), and how a host line's numbers reach the ports (R79, R82). -/

namespace Sys2Proof.Machine

/-! ### Decoding -/

/-- Exactly the eight words of R75 decode. -/
theorem decode_isSome_iff (w : CmdWord) :
    (decode w).isSome ↔ w ∈ [0x00#8, 0x10#8, 0x12#8, 0x14#8, 0x18#8, 0x20#8, 0x30#8, 0x38#8] := by
  revert w; decide

/-- Settles O1: the decoding of each legal word, and no other word decodes. -/
theorem eightLegalWords : Obligations.EightLegalWords := by
  unfold Obligations.EightLegalWords
  exact ⟨decode_nop, decode_encMan_mb0, decode_encMan_mb1, decode_encOdd, decode_encEven, decode_init, decode_xmitE, decode_xmitP,
    decode_isSome_iff⟩

/-- Decoding by any rows builds from the first row that matches (R77). -/
theorem decodeRows_eq_find? (rows : List OpcodeRow) (w : CmdWord) :
    decodeRows rows w = (rows.find? (fun r => r.matchesWord w)).map (fun r => r.build w) := by
  induction rows with
  | nil => rfl
  | cons r rows ih =>
    rw [decodeRows, List.find?_cons]
    cases r.matchesWord w
    · exact ih
    · rfl

/-- No word matches two rows of the table (R77). -/
theorem matching_opcodeRows_length_le_one (w : CmdWord) : (opcodeRows.filter (fun r => r.matchesWord w)).length ≤ 1 := by
  revert w; decide

/-- Settles O2: the decoder is the first matching row, no other row matches, and it answers none where no row matches. -/
theorem decodingFollowsTheRows : Obligations.DecodingFollowsTheRows := by
  unfold Obligations.DecodingFollowsTheRows
  intro w
  have hfind := decodeRows_eq_find? opcodeRows w
  refine ⟨hfind, matching_opcodeRows_length_le_one w, ?_⟩
  rw [decode, hfind, Option.map_eq_none_iff, List.find?_eq_none]
  simp only [OpcodeRow.matchesWord, beq_iff_eq, ne_eq]

/-! ### Host lines -/

/-- Settles O5: each port takes a host number modulo its width, and the assembler refuses no operand number. -/
theorem hostValuesAreTruncated : Obligations.HostValuesAreTruncated := by
  unfold Obligations.HostValuesAreTruncated
  refine ⟨fun label sdi data ssm => ?_, fun div => ?_, fun bytes => ?_, fun _ => ⟨rfl, rfl, rfl, rfl⟩, fun _ => ⟨rfl, rfl⟩⟩
  · exact ⟨BitVec.toNat_ofNat label 8, BitVec.toNat_ofNat sdi 2, BitVec.toNat_ofNat data 19, BitVec.toNat_ofNat ssm 2⟩
  · exact BitVec.toNat_ofNat div 16
  · exact BitVec.toNat_ofNat bytes 32

/-- A frame's port word as a number, byte 0 the most significant (R56). -/
theorem Frame.toWord_toNat (f : Frame) :
    f.toWord.toNat = f.b0.toNat * 2 ^ 24 + f.b1.toNat * 2 ^ 16 + f.b2.toNat * 2 ^ 8 + f.b3.toNat := by
  rw [toWord_eq_append]
  have h1 := f.b1.isLt
  have h2 := f.b2.isLt
  have h3 := f.b3.isLt
  simp only [BitVec.toNat_append]
  rw [← Nat.shiftLeft_add_eq_or_of_lt h1, ← Nat.shiftLeft_add_eq_or_of_lt h2, ← Nat.shiftLeft_add_eq_or_of_lt h3]
  simp only [Nat.shiftLeft_eq]
  omega

/-- The port word of TRANSMIT's bytes is the number `{b0, b1, b2, b3}` (R82). -/
theorem packBytes_eq_ofNat (b0 b1 b2 b3 : Byte) :
    packBytes b0.toNat b1.toNat b2.toNat b3.toNat =
      BitVec.ofNat 32 (b0.toNat * 2 ^ 24 + b1.toNat * 2 ^ 16 + b2.toNat * 2 ^ 8 + b3.toNat) := by
  rw [← Frame.toWord_toNat ⟨b0, b1, b2, b3⟩]
  simp only [packBytes, BitVec.ofNat_toNat, BitVec.setWidth_eq]

/-- Settles O6: ENC and SEND expand by their policy, and TRANSMIT's ports are XMIT.P's with the four bytes as one number. -/
theorem pseudoInstructionsExpand : Obligations.PseudoInstructionsExpand := by
  unfold Obligations.PseudoInstructionsExpand
  refine ⟨fun _ _ => rfl, fun _ => rfl, fun _ => rfl, fun _ _ => rfl, fun b0 b1 b2 b3 => ?_⟩
  simp only [expandLine, packBytes_eq_ofNat, Operands.forXmitP]

end Sys2Proof.Machine
end

section
/-! PROOFS. The encoder's functions (40_encoder.md section 1): reversal, packing, the parity bit and its insertion. -/

namespace Sys2Proof.Machine

/-! ### Reversal -/

/-- R102: the eight bits are counted from the other end. -/
theorem popcount_rev8 (b : Byte) : popcount (rev8 b) = popcount b := by
  simp only [popcount, onesBelow, rev8_bit, Nat.reduceLT, Nat.reduceSub, decide_true, Bool.true_and]
  omega

/-- Reversal acts on each bit alone, so it keeps an XOR (R101). -/
theorem rev8_xor (a b : Byte) : rev8 (a ^^^ b) = rev8 a ^^^ rev8 b := by
  refine BitVec.eq_of_getLsbD_eq fun i hi => ?_
  simp only [rev8_bit, BitVec.getLsbD_xor, hi, decide_true, Bool.true_and]

/-- Settles O7: the mirror is `rev8`'s bit-by-bit law, and the four examples are computed. -/
theorem reversalMirrorsBits : Obligations.ReversalMirrorsBits := by
  unfold Obligations.ReversalMirrorsBits
  refine ⟨fun b i hi => ?_, by decide, by decide, by decide, by decide⟩
  simp only [rev8_bit, hi, decide_true, Bool.true_and]

/-- Settles O8: mirroring twice moves each bit back, and mirroring only reorders the bits counted. -/
theorem reversalLaws : Obligations.ReversalLaws := by
  unfold Obligations.ReversalLaws
  exact fun b => ⟨rev8_rev8 b, popcount_rev8 b⟩

/-! ### Packing and parity insertion -/

/-- A manual parity bit of 0 leaves the packed fields as they are (R109). -/
theorem encodeWord_manual_zero (p : Params) (label : Label) (sdi : Sdi) (data : Data) (ssm : Ssm) :
    encodeWord p label sdi data ssm (.manual 0#1) = pack p.layout label sdi data ssm := by
  simp only [encodeWord, parityBit, insertParity, BitVec.setWidth_zero, BitVec.or_zero]

/-- Settles O9: U is the word of a manual parity bit of 0, whose fields O10 places. -/
theorem packPlacesEveryField : Obligations.PackPlacesEveryField := by
  unfold Obligations.PackPlacesEveryField
  intro label sdi data ssm
  have hplaces := packedWordLayouts .exceptParity label sdi data ssm (.manual 0#1)
  simpa only [encodeWord_manual_zero, parityBit] using hplaces

/-- Settles O14: bit 0 of U is empty, so inserting there puts `p` in it. -/
theorem parityInsertedAtBitZero : Obligations.ParityInsertedAtBitZero := by
  unfold Obligations.ParityInsertedAtBitZero
  intro u p h0
  constructor
  · refine BitVec.eq_of_getLsbD_eq fun i hi => ?_
    obtain rfl : i = 0 := by omega
    simp only [BitVec.getLsbD_extractLsb', insertParity_bit u p 0 (by omega), h0, Nat.reduceLT, Nat.add_zero, decide_true,
      Bool.true_and, if_true, Bool.false_or]
  · refine BitVec.eq_of_getLsbD_eq fun i hi => ?_
    have hpos : 1 + i ≠ 0 := by omega
    simp only [BitVec.getLsbD_extractLsb', hi, insertParity_bit u p (1 + i) (by omega), if_neg hpos]

/-- The encoded word is U with the policy's bit at bit 0 (R109, R111). -/
theorem encodeWord_slices (p : Params) (label : Label) (sdi : Sdi) (data : Data) (ssm : Ssm) (pol : Policy) :
    (encodeWord p label sdi data ssm pol).extractLsb' 0 1 = parityBit p.parityMask pol (pack p.layout label sdi data ssm) ∧
    (encodeWord p label sdi data ssm pol).extractLsb' 1 31 = (pack p.layout label sdi data ssm).extractLsb' 1 31 :=
  parityInsertedAtBitZero _ _ (pack_bit_zero p.layout label sdi data ssm)

/-- Words of equal operands differ at bit 0 only, by the XOR of their parity bits (R109). -/
theorem encodeWord_xor (p : Params) (label : Label) (sdi : Sdi) (data : Data) (ssm : Ssm) (pol pol' : Policy) :
    encodeWord p label sdi data ssm pol ^^^ encodeWord p label sdi data ssm pol' =
      (parityBit p.parityMask pol (pack p.layout label sdi data ssm) ^^^
        parityBit p.parityMask pol' (pack p.layout label sdi data ssm)).setWidth 32 := by
  refine BitVec.eq_of_getLsbD_eq fun i hi => ?_
  rw [BitVec.getLsbD_xor, encodeWord_bit _ _ _ _ _ _ i hi, encodeWord_bit _ _ _ _ _ _ i hi, BitVec.getLsbD_setWidth]
  split
  · next h => simp [h]
  · next h => simp [BitVec.getLsbD_of_ge _ i (by omega : 1 ≤ i)]

/-! ### Parity -/

/-- A one-bit value as a number is its bit. -/
theorem toNat_eq_bit_zero (x : Bit) : x.toNat = (x.getLsbD 0).toNat := by revert x; decide

/-- Settles O11: the folds keep the XOR of all bits, which is the parity of their number. -/
theorem xorFoldIsPopcountParity : Obligations.XorFoldIsPopcountParity := by
  unfold Obligations.XorFoldIsPopcountParity
  intro v
  rw [toNat_eq_bit_zero, xorFold32_bit, popcount, onesBelow_mod_two]

/-- The bit of U that the parity generator does not read (R105). -/
def leftOut : ParityMask → Nat
  | .exceptParity => 0
  | .exceptTop => 31

theorem leftOut_lt (m : ParityMask) : leftOut m < 32 := by cases m <;> decide

/-- Each mask is 0 at the bit left out only (R6). -/
theorem maskBits_bit (m : ParityMask) {i : Nat} (hi : i < 32) : m.bits.getLsbD i = decide (i ≠ leftOut m) := by
  revert i; cases m <;> decide

theorem parityInput_bit (m : ParityMask) (u : Word32) {i : Nat} (hi : i < 32) :
    (parityInput m u).getLsbD i = (decide (i ≠ leftOut m) && u.getLsbD i) := by
  rw [parityInput, BitVec.getLsbD_and, maskBits_bit m hi, Bool.and_comm]

/-- Settles O12: each mask lets every bit through but the one it leaves out. -/
theorem parityInputCoverage : Obligations.ParityInputCoverage := by
  unfold Obligations.ParityInputCoverage
  exact fun u i hi => ⟨parityInput_bit .exceptParity u hi, parityInput_bit .exceptTop u hi⟩

/-- The even bit repeats the parity of P_IN (R108). -/
theorem parityBit_evenAuto_toNat (m : ParityMask) (u : Word32) :
    (parityBit m .evenAuto u).toNat = popcount (parityInput m u) % 2 :=
  xorFoldIsPopcountParity _

/-- The two automatic bits are each other's complement (R107, R108). -/
theorem parityBit_evenAuto_eq_not (m : ParityMask) (u : Word32) : parityBit m .evenAuto u = ~~~ (parityBit m .oddAuto u) := by
  simp only [parityBit]
  generalize xorFold32 (parityInput m u) = x
  revert x; decide

/-- The odd bit is the even bit flipped, as numbers (R107). -/
theorem parityBit_oddAuto_toNat (m : ParityMask) (u : Word32) :
    (parityBit m .oddAuto u).toNat = 1 - popcount (parityInput m u) % 2 := by
  rw [← parityBit_evenAuto_toNat, parityBit_evenAuto_eq_not]
  generalize parityBit m .oddAuto u = x
  revert x; decide

/-- Settles O13: by the two automatic bits as numbers; a manual bit is taken as it is. -/
theorem parityBitOfEachPolicy : Obligations.ParityBitOfEachPolicy := by
  unfold Obligations.ParityBitOfEachPolicy
  intro m u
  rw [parityBit_oddAuto_toNat, parityBit_evenAuto_toNat]
  exact ⟨fun _ => rfl, by split <;> omega, by split <;> omega, parityBit_evenAuto_eq_not m u⟩

end Sys2Proof.Machine
end

section
/-! PROOFS. The laws of the encoded word (40_encoder.md section 3): its parity, by counting which of its 1 bits the generator reads, and the
way of every operand bit into the buffer and back. -/

namespace Sys2Proof.Machine

/-! ### The parity of the word -/

/-- Values that agree everywhere but at bit `j` differ in their number of 1 bits as they do at `j`. -/
theorem onesBelow_add_bit {w w' : Nat} (v : BitVec w) (v' : BitVec w') {j n : Nat} (hj : j < n)
    (h : ∀ i < n, i ≠ j → v.getLsbD i = v'.getLsbD i) :
    onesBelow v n + (v'.getLsbD j).toNat = onesBelow v' n + (v.getLsbD j).toNat := by
  induction n with
  | zero => omega
  | succ n ih =>
    simp only [onesBelow]
    by_cases hjn : j = n
    · subst hjn
      rw [onesBelow_congr v v' j fun i hi => h i (by omega) (by omega)]
      omega
    · have hbelow := ih (by omega) fun i hi => h i (by omega)
      rw [h n (by omega) (Ne.symm hjn)]
      omega

/-- The bits that feed the parity generator are all of U's but the one left out (R105). -/
theorem popcount_parityInput (m : ParityMask) (u : Word32) :
    popcount (parityInput m u) + (u.getLsbD (leftOut m)).toNat = popcount u := by
  have hdrop := onesBelow_add_bit (parityInput m u) u (leftOut_lt m) fun i hi hne => by
    simp only [parityInput_bit m u hi, hne, ne_eq, not_false_eq_true, decide_true, Bool.true_and]
  have hbit : (parityInput m u).getLsbD (leftOut m) = false := by
    simp only [parityInput_bit m u (leftOut_lt m), ne_eq, not_true_eq_false, decide_false, Bool.false_and]
  rwa [hbit] at hdrop

/-- Parity insertion adds the parity bit to the number of 1 bits (R109). -/
theorem popcount_insertParity {u : Word32} (p : Bit) (h0 : u.getLsbD 0 = false) :
    popcount (insertParity u p) = popcount u + p.toNat := by
  have hadd := onesBelow_add_bit (insertParity u p) u (by omega : 0 < 32) fun i hi hne => by
    rw [insertParity_bit u p i hi, if_neg hne]
  rwa [insertParity_bit u p 0 (by omega), if_pos rfl, h0, Bool.false_or, ← toNat_eq_bit_zero] at hadd

/-- The word's 1 bits are those that feed the parity generator, the bit of U left out, and the parity bit (R105, R109). -/
theorem popcount_encodeWord (p : Params) (label : Label) (sdi : Sdi) (data : Data) (ssm : Ssm) (pol : Policy) :
    popcount (encodeWord p label sdi data ssm pol) =
      popcount (parityInput p.parityMask (pack p.layout label sdi data ssm)) +
        ((pack p.layout label sdi data ssm).getLsbD (leftOut p.parityMask)).toNat +
        (parityBit p.parityMask pol (pack p.layout label sdi data ssm)).toNat := by
  rw [encodeWord, popcount_insertParity _ (pack_bit_zero p.layout label sdi data ssm), popcount_parityInput]

/-- Both layouts put the label's bit 0 at the top (R83, R84). -/
theorem pack_bit_top (l : Layout) (label : Label) (sdi : Sdi) (data : Data) (ssm : Ssm) :
    (pack l label sdi data ssm).getLsbD 31 = label.getLsbD 0 := by
  cases l
  · exact packFull_bit label sdi data ssm 31 (by omega)
  · exact packLiteral_bit label sdi data ssm 31 (by omega)

/-- With the mask that leaves out the parity slot, the generator reads every field bit (R105, R116). -/
theorem popcount_encodeWord_exceptParity (l : Layout) (label : Label) (sdi : Sdi) (data : Data) (ssm : Ssm) (pol : Policy) :
    popcount (encodeWord ⟨l, .exceptParity⟩ label sdi data ssm pol) =
      popcount (parityInput .exceptParity (pack l label sdi data ssm)) +
        (parityBit .exceptParity pol (pack l label sdi data ssm)).toNat := by
  rw [popcount_encodeWord, leftOut, pack_bit_zero, Bool.toNat_false, Nat.add_zero]

/-- R116, the odd law. -/
theorem popcount_encodeWord_oddAuto (l : Layout) (label : Label) (sdi : Sdi) (data : Data) (ssm : Ssm) :
    popcount (encodeWord ⟨l, .exceptParity⟩ label sdi data ssm .oddAuto) % 2 = 1 := by
  rw [popcount_encodeWord_exceptParity, parityBit_oddAuto_toNat]
  omega

/-- R116, the even law. -/
theorem popcount_encodeWord_evenAuto (l : Layout) (label : Label) (sdi : Sdi) (data : Data) (ssm : Ssm) :
    popcount (encodeWord ⟨l, .exceptParity⟩ label sdi data ssm .evenAuto) % 2 = 0 := by
  rw [popcount_encodeWord_exceptParity, parityBit_evenAuto_toNat]
  omega

/-- A word's 1 bits are those of `W[30:0]` and bit 31. -/
theorem popcount_eq_low_add_top (w : Word32) : popcount w = popcount (w.extractLsb' 0 31) + (w.getLsbD 31).toNat := by
  rw [popcount, onesBelow, popcount, onesBelow_congr w (w.extractLsb' 0 31) 31 fun i hi => by simp [hi]]

/-- With the mask that leaves out the top bit, the generator misses the label's bit 0 (R105, R116). -/
theorem popcount_encodeWord_exceptTop (l : Layout) (label : Label) (sdi : Sdi) (data : Data) (ssm : Ssm) (pol : Policy) :
    popcount (encodeWord ⟨l, .exceptTop⟩ label sdi data ssm pol) =
      popcount (parityInput .exceptTop (pack l label sdi data ssm)) + (label.getLsbD 0).toNat +
        (parityBit .exceptTop pol (pack l label sdi data ssm)).toNat := by
  rw [popcount_encodeWord, leftOut, pack_bit_top]

/-- Without bit 31 the encoded word has the 1 bits that this mask's generator reads, and the parity bit (R116). -/
theorem popcount_low_encodeWord_exceptTop (l : Layout) (label : Label) (sdi : Sdi) (data : Data) (ssm : Ssm) (pol : Policy) :
    popcount ((encodeWord ⟨l, .exceptTop⟩ label sdi data ssm pol).extractLsb' 0 31) =
      popcount (parityInput .exceptTop (pack l label sdi data ssm)) +
        (parityBit .exceptTop pol (pack l label sdi data ssm)).toNat := by
  have hwhole := popcount_encodeWord_exceptTop l label sdi data ssm pol
  have htop : (encodeWord ⟨l, .exceptTop⟩ label sdi data ssm pol).getLsbD 31 = label.getLsbD 0 :=
    (encodeWord_bit _ _ _ _ _ _ 31 (by omega)).trans (pack_bit_top l label sdi data ssm)
  have hsplit := popcount_eq_low_add_top (encodeWord ⟨l, .exceptTop⟩ label sdi data ssm pol)
  rw [htop] at hsplit
  omega

/-- Settles O19: the 1 bits of the word, or of `W[30:0]`, are those of P_IN and the parity bit, which the policy chose by P_IN. -/
theorem wordParityIsCorrect : Obligations.WordParityIsCorrect := by
  unfold Obligations.WordParityIsCorrect
  refine ⟨fun l label sdi data ssm => ?_, fun l label sdi data ssm => ?_⟩
  · exact ⟨popcount_encodeWord_oddAuto l label sdi data ssm, popcount_encodeWord_evenAuto l label sdi data ssm,
      fun x => (encodeWord_slices _ label sdi data ssm (.manual x)).1⟩
  · simp only [popcount_low_encodeWord_exceptTop, popcount_encodeWord_exceptTop, parityBit_oddAuto_toNat, parityBit_evenAuto_toNat]
    refine ⟨by omega, by omega, fun hlabel => ?_⟩
    rw [hlabel, Bool.toNat_true]
    exact ⟨by omega, by omega⟩

/-! ### The word's way to the buffer and back -/

/-- Settles O18: the buffer gives the word back, and the word's fields are where R83 puts them. -/
theorem encodeDecodeRoundTrip : Obligations.EncodeDecodeRoundTrip := by
  unfold Obligations.EncodeDecodeRoundTrip
  intro m label sdi data ssm pol
  obtain ⟨⟨hlabel, hsdi, hdata, hssm, hparity⟩, -⟩ := packedWordLayouts m label sdi data ssm pol
  rw [decodeBuffer, deserialize_serialize, hlabel, hsdi, hdata, hssm, hparity, rev8_rev8]

/-- `serialize` loses nothing (R110). -/
theorem serialize_injective : Function.Injective serialize := Function.LeftInverse.injective deserialize_serialize

/-- A manual parity bit is bit 0 of the word and nothing else (R106, R117). -/
theorem encodeWord_manual_xor (p : Params) (label : Label) (sdi : Sdi) (data : Data) (ssm : Ssm) :
    encodeWord p label sdi data ssm (.manual 1#1) ^^^ encodeWord p label sdi data ssm (.manual 0#1) = 1#32 := by
  rw [encodeWord_xor, parityBit, parityBit]
  decide

/-- Settles O20: the two words differ at bit 0 only, so only byte 3's slice differs, at its bit 0, which is reversed to bit 7. -/
theorem manualParityIsIsolated : Obligations.ManualParityIsIsolated := by
  unfold Obligations.ManualParityIsIsolated
  rintro p label sdi data ssm w1 w0 rfl rfl
  have hone := encodeWord_manual_xor p label sdi data ssm
  generalize encodeWord p label sdi data ssm (.manual 1#1) = w1 at *
  generalize encodeWord p label sdi data ssm (.manual 0#1) = w0 at *
  have hslice (start : Nat) : w1.extractLsb' start 8 ^^^ w0.extractLsb' start 8 = (1#32).extractLsb' start 8 := by
    rw [← BitVec.extractLsb'_xor, hone]
  have h0 : w1.extractLsb' 24 8 = w0.extractLsb' 24 8 := BitVec.xor_eq_zero_iff.mp (hslice 24)
  have h1 : w1.extractLsb' 16 8 = w0.extractLsb' 16 8 := BitVec.xor_eq_zero_iff.mp (hslice 16)
  have h2 : w1.extractLsb' 8 8 = w0.extractLsb' 8 8 := BitVec.xor_eq_zero_iff.mp (hslice 8)
  refine ⟨hone, h0, congrArg rev8 h1, congrArg rev8 h2, ?_⟩
  rw [serialize, serialize, ← rev8_xor, hslice 0]
  decide

/-- `pack` under FULL keeps the operands apart (R118). -/
theorem pack_full_injective {label label' : Label} {sdi sdi' : Sdi} {data data' : Data} {ssm ssm' : Ssm}
    (h : pack .full label sdi data ssm = pack .full label' sdi' data' ssm') :
    label = label' ∧ sdi = sdi' ∧ data = data' ∧ ssm = ssm' := by
  obtain ⟨⟨hlabel, hsdi, hdata, hssm, -⟩, -⟩ := packPlacesEveryField label sdi data ssm
  obtain ⟨⟨hlabel', hsdi', hdata', hssm', -⟩, -⟩ := packPlacesEveryField label' sdi' data' ssm'
  rw [h] at hlabel hsdi hdata hssm
  have hrev : rev8 label = rev8 label' := hlabel.symm.trans hlabel'
  exact ⟨by rw [← rev8_rev8 label, hrev, rev8_rev8], hsdi.symm.trans hsdi', hdata.symm.trans hdata', hssm.symm.trans hssm'⟩

/-- Under SOURCE_LITERAL the word depends on bit 0 of `ssm` alone (R84). -/
theorem encodeWord_sourceLiteral_congr_ssm (m : ParityMask) (pol : Policy) (label : Label) (sdi : Sdi) (data : Data) {ssm ssm' : Ssm}
    (h : ssm.getLsbD 0 = ssm'.getLsbD 0) :
    encodeWord ⟨.sourceLiteral, m⟩ label sdi data ssm pol = encodeWord ⟨.sourceLiteral, m⟩ label sdi data ssm' pol := by
  have hbit : ssm.extractLsb' 0 1 = ssm'.extractLsb' 0 1 := by
    refine BitVec.eq_of_getLsbD_eq fun i hi => ?_
    obtain rfl : i = 0 := by omega
    simp only [BitVec.getLsbD_extractLsb', Nat.add_zero, h]
  simp only [encodeWord, pack, packLiteral, hbit]

/-- Settles O21: the places are R83's; a decoded buffer gives the operands back, so equal buffers come from equal operands. -/
theorem everyOperandBitReachesTheBuffer : Obligations.EveryOperandBitReachesTheBuffer := by
  unfold Obligations.EveryOperandBitReachesTheBuffer
  refine ⟨?_, fun _ _ _ _ _ _ _ _ => pack_full_injective, fun _ _ h => serialize_injective h, ?_,
    fun m pol label sdi data _ _ => encodeWord_sourceLiteral_congr_ssm m pol label sdi data⟩
  · rintro m pol label sdi data ssm w rfl
    have hword := @encodeWord_full_bit m label sdi data ssm pol
    -- Each place falls in its own field's range of `encodeWord_full_bit`.
    refine ⟨fun i hi => ?_, fun i hi => ?_, fun i hi => ?_, fun i hi => ?_⟩ <;> rw [hword (by omega)] <;> grind
  · intro m pol label label' sdi sdi' data data' ssm ssm' hne hbuffer
    have hfields := congrArg decodeBuffer hbuffer
    rw [encodeDecodeRoundTrip, encodeDecodeRoundTrip] at hfields
    injection hfields with hlabel hsdi hdata hssm
    exact hne (by rw [hlabel, hsdi, hdata, hssm])

end Sys2Proof.Machine
end

section
/-! PROOFS. The encode commands (40_encoder.md section 2, R119): each writes the word of its own policy. -/

namespace Sys2Proof.Machine

/-- All-zero operands pack to an empty U under both layouts, whose word is the parity bit alone (R109). -/
theorem encodeWord_zero_manual (p : Params) (b : Bit) : encodeWord p 0 0 0 0 (.manual b) = b.setWidth 32 := by
  obtain ⟨l, m⟩ := p
  cases l <;> exact BitVec.zero_or

/-- ENC.MAN has two words, one for each value of its bit 1 (R75). -/
theorem decode_eq_encMan_iff (w : CmdWord) (mb : Bit) : decode w = some (.encMan mb) ↔ w = if mb = 1#1 then 0x12#8 else 0x10#8 := by
  revert w mb; decide

/-- Settles O23: the effect is `writeWord`'s; the parity bit is the manual one, and the example's values are computed. -/
theorem encManWritesTheWord : Obligations.EncManWritesTheWord := by
  unfold Obligations.EncManWritesTheWord
  refine ⟨fun _ _ => rfl, fun p label sdi data ssm mb => ?_, fun p => ?_, by decide, by decide, decode_eq_encMan_iff⟩
  · obtain ⟨hbit, hrest⟩ := encodeWord_slices p label sdi data ssm (.manual mb)
    exact ⟨hbit, hrest.trans (encodeWord_slices p label sdi data ssm (.manual 0#1)).2.symm⟩
  · exact encodeWord_zero_manual p 1#1

/-- Settles O24: the effect is `writeWord`'s, the odd number of 1 bits is R116's, and the corner cases and the example are computed. -/
theorem encOddWritesTheWord : Obligations.EncOddWritesTheWord := by
  unfold Obligations.EncOddWritesTheWord
  exact ⟨fun _ => rfl, by decide, by decide, by decide, by decide, decode_encOdd, by decide, popcount_encodeWord_oddAuto .full⟩

/-- The automatic policies give words that differ exactly at bit 0 (R114). -/
theorem encodeWord_evenAuto_xor_oddAuto (p : Params) (label : Label) (sdi : Sdi) (data : Data) (ssm : Ssm) :
    encodeWord p label sdi data ssm .evenAuto ^^^ encodeWord p label sdi data ssm .oddAuto = 1#32 := by
  rw [encodeWord_xor, parityBit_evenAuto_eq_not]
  generalize parityBit p.parityMask .oddAuto (pack p.layout label sdi data ssm) = x
  revert x; decide

/-- Settles O25: the effect is `writeWord`'s, the two automatic bits are complements, and the corner cases and the example are computed. -/
theorem encEvenWritesTheWord : Obligations.EncEvenWritesTheWord := by
  unfold Obligations.EncEvenWritesTheWord
  exact ⟨fun _ => rfl, by decide, by decide, by decide, by decide, decode_encEven, by decide, encodeWord_evenAuto_xor_oddAuto⟩

/-- Every encode command writes the word of its own policy, whatever the state (R112 to R114). -/
theorem exec_encode {i : Instr} (h : IsEncInstr i) : ∃ pol, ∀ s, exec i s = .next (s.writeWord (s.encodedOperands pol)) := by
  rcases h with rfl | rfl | rfl | rfl
  · exact ⟨.manual 0#1, fun _ => rfl⟩
  · exact ⟨.manual 1#1, fun _ => rfl⟩
  · exact ⟨.oddAuto, fun _ => rfl⟩
  · exact ⟨.evenAuto, fun _ => rfl⟩

/-- Settles O26: the command fixes the policy, and the word is then a function of the parameters and the four operands. -/
theorem encodingIsDeterministic : Obligations.EncodingIsDeterministic := by
  unfold Obligations.EncodingIsDeterministic
  intro s s' i henc hparams hlabel hsdi hdata hssm
  obtain ⟨pol, hexec⟩ := exec_encode henc
  refine ⟨_, _, hexec s, hexec s', ?_⟩
  simp only [State.writeWord_word, State.encodedOperands, hparams, hlabel, hsdi, hdata, hssm]

end Sys2Proof.Machine
end

section
/-! PROOFS. INIT, the sequencer, the shifter and the serial outputs edge by edge (41_transmitter.md sections 1 and 2, R155). -/

namespace Sys2Proof.Machine

/-! ### INIT -/

/-- The first INIT (R155). -/
theorem exec_init_of_not_initd {s : State} (h : s.initd = false) : exec .init s = .next (s.configure s.ports.ops.inDiv) := by
  simp [exec, execInit, h]

/-- A second INIT (R213). -/
theorem exec_init_of_initd {s : State} (h : s.initd = true) : exec .init s = .next (s.raise .reinit) := by
  simp [exec, execInit, h]

/-- While no byte shifts, the divisor shows on no output port (R142, R155). -/
theorem configure_outputs {s : State} (d : Divisor) (ha : s.act = false) : (s.configure d).outputs = { s.outputs with initd := true } := by
  have hsck : (s.configure d).sck = s.sck := by simp [State.sck, ha]
  simp only [State.outputs, hsck]
  rfl

/-- A busy block is not ready, so it accepts nothing (R191). -/
theorem accepted_eq_false_of_busy {s : State} (h : s.busy = true) : s.accepted = false := by
  simp [State.accepted, State.cmdReady, (busy_iff s).mp h]

/-- Settles O27: INIT is `configure` the first time and `raise` after it; `configure` shows on no output but `initd` while no byte shifts. -/
theorem initConfiguresOnce : Obligations.InitConfiguresOnce := by
  unfold Obligations.InitConfiguresOnce
  refine ⟨fun _ => exec_init_of_not_initd, fun _ => exec_init_of_initd, fun s t hn ha h => ?_, fun _ => accepted_eq_false_of_busy,
    decode_init⟩
  obtain rfl : s.configure s.ports.ops.inDiv = t := next_inj.mp (exec_init_of_not_initd hn ▸ h)
  exact ⟨rfl, configure_outputs _ ha⟩

/-! ### What an edge leaves in the shifter's and the sequencer's registers -/

/-- The command unit writes no register of the shifter (R198). -/
theorem CommandUnitWrites.shifterRegisters_kept {s c : State} (h : CommandUnitWrites s c) :
    c.tdr = s.tdr ∧ c.tsr = s.tsr ∧ c.act = s.act ∧ c.bitn = s.bitn ∧ c.ph = s.ph ∧ c.dre = s.dre := by
  cases h <;> exact ⟨rfl, rfl, rfl, rfl, rfl, rfl⟩

/-- The command unit writes SEQ and IDX only where it starts a frame (R156, R157). -/
theorem CommandUnitWrites.seq_idx_kept {s c : State} (h : CommandUnitWrites s c) :
    c.seq = s.seq ∧ c.idx = s.idx ∨ s.accepted = true ∧ c.seq = .load := by
  cases h with
  | frame f ha => exact .inr ⟨ha, rfl⟩
  | nothing | word | divisor | fault => exact .inl ⟨rfl, rfl⟩

/-- Settling TXC leaves the shifter's other registers alone (log 9). -/
theorem mergeWrites_shifterRegisters (s c : State) :
    (mergeWrites s c).tsr = (shifter s (sequencer s c)).tsr ∧ (mergeWrites s c).act = (shifter s (sequencer s c)).act ∧
    (mergeWrites s c).ph = (shifter s (sequencer s c)).ph := by
  rw [mergeWrites, settleTxc_keeps]
  exact ⟨rfl, rfl, rfl⟩

/-- The edge leaves in TDR, IDX and SEQ what the sequencer put there (R198). -/
theorem mergeWrites_sequencerRegisters (s c : State) :
    (mergeWrites s c).tdr = (sequencer s c).tdr ∧ (mergeWrites s c).idx = (sequencer s c).idx ∧
    (mergeWrites s c).seq = (sequencer s c).seq := by
  obtain ⟨htdr, hidx, hseq, -⟩ := shifter_keeps s (sequencer s c)
  rw [mergeWrites, settleTxc_keeps]
  exact ⟨htdr, hidx, hseq⟩

/-! ### The shifter -/

/-- The shifter's writes, case by case in R165's order. -/
theorem shifter_eq (s c : State) : shifter s c =
    if s.act = false ∧ s.dre = false then { c with tsr := s.tdr, dre := true, act := true, bitn := 0#3, ph := 0#17 }
    else if s.act = false ∧ s.dre = true then c
    else if s.ph.toNat < 2 * s.halfPeriod - 1 then { c with ph := s.ph + 1#17 }
    else if s.bitn.toNat < 7 then { c with bitn := s.bitn + 1#3, tsr := s.tsr <<< 1, ph := 0#17 }
    else if s.dre = false then { c with tsr := s.tdr, dre := true, bitn := 0#3, ph := 0#17 }
    else { c with act := false, txc := true, bitn := 0#3, ph := 0#17 } := by
  have hlast : 2 * s.halfPeriod - 1 = 2 * s.div.toNat + 1 := by simp only [State.halfPeriod]; omega
  have htests := shiftCase_tests s
  unfold shifter
  rw [hlast]
  cases hcase : s.shiftCase <;> rw [hcase] at htests
  case startByte | idle | advancePhase => simp [htests]
  case nextBit | nextByte | endOfFrame => simp [htests, Nat.not_lt.mpr htests.2.1]

/-- Settles O42: the cases are `shifter_eq`'s, and the edge is the shifter over the sequencer over the command unit (R197). -/
theorem shifterCases : Obligations.ShifterCases := by
  unfold Obligations.ShifterCases
  refine ⟨shifter_eq, ?_⟩
  rintro s c m hinv hr hc rfl
  rw [edge_of_commandUnit s c hr hc, mergeWrites_eq s c fun hq => (factsOfR42_idle hinv.1 hq).1, shifter_eq]

/-! ### The sequencer -/

/-- `TXBUF[IDX]` for the indices that exist (R30, R32). -/
theorem byteAt_idx {s : State} (h : s.idx.toNat ≤ 3) : s.txbuf.byteAt s.idx.toNat = some s.nextFrameByte := by
  unfold State.nextFrameByte
  generalize s.idx.toNat = i at *
  interval_cases i <;> rfl

/-- Settles O43: the edge leaves TDR, IDX and SEQ as the sequencer's case does, over what the command unit left. -/
theorem sequencerAtEveryEdge : Obligations.SequencerAtEveryEdge := by
  unfold Obligations.SequencerAtEveryEdge
  intro s t hr h
  obtain ⟨c, hc, rfl⟩ := edge_next_of_not_rst h hr
  obtain ⟨htdr, hidx, hseq⟩ := mergeWrites_sequencerRegisters s c
  rw [htdr, hidx, hseq]
  cases hq : s.seq with
  | idle =>
    have hwrites := commandUnit_cases hc
    obtain ⟨ktdr, -⟩ := hwrites.shifterRegisters_kept
    rw [sequencer_idle s c hq] at hseq ⊢
    refine ⟨by simp, by simp, by simp, by simp, fun _ => ⟨ktdr, ?_⟩⟩
    rcases hwrites.seq_idx_kept with ⟨kseq, kidx⟩ | ⟨ha, hload⟩
    · exact .inl ⟨kseq.trans hq, kidx⟩
    · exact .inr ⟨ha, h, hseq.trans hload⟩
  | load =>
    obtain rfl := commandUnit_of_busy hc (by simp [hq])
    refine ⟨fun _ hd hi => ?_, fun _ hd => ?_, by simp, by simp, by simp⟩
    · rw [mergeWrites_busy c (by simp [hq]), shifter_dre_of_dre _ hd, sequencer_load c c hq hd]
      refine ⟨(byteAt_idx hi).symm, rfl, rfl, ?_⟩
      simp [loadByte, hq]
    · rw [sequencer_load_wait c c hq hd]
      exact ⟨rfl, rfl, hq⟩
  | waitc =>
    obtain rfl := commandUnit_of_busy hc (by simp [hq])
    refine ⟨by simp, by simp, fun _ hdone => ?_, fun _ hwait => ?_, by simp⟩
    · rw [sequencer_waitc c c hq hdone]
      exact ⟨rfl, rfl, rfl⟩
    · rw [sequencer_waitc_wait c c hq hwait]
      exact ⟨hq, rfl, rfl⟩

/-! ### The serial outputs -/

/-- `sck` with the phase as a number (R142). -/
theorem sck_iff (s : State) : s.sck = true ↔ s.act = true ∧ s.halfPeriod ≤ s.ph.toNat := by
  simp [State.sck, BitVec.le_def, half_toNat]

/-- `sck` is low in the first cycle of a bit period (R142). -/
theorem sck_eq_false_of_ph {s : State} (h : s.ph = 0) : s.sck = false := by
  simp [State.sck, BitVec.le_def, half_toNat, h]

theorem sdo_of_act {s : State} (h : s.act = true) : s.sdo = s.tsr.getLsbD 7 := by simp [State.sdo, h]

theorem sdo_of_not_act {s : State} (h : s.act = false) : s.sdo = Config.sdoIdle := by simp [State.sdo, h]

/-- `sdo` is a function of TSR and ACT (R143). -/
theorem sdo_congr {s t : State} (htsr : t.tsr = s.tsr) (hact : t.act = s.act) : t.sdo = s.sdo := by simp only [State.sdo, htsr, hact]

/-- A case of the shifter that writes TSR or ACT starts a bit period or leaves the shifter at rest, so the phase is 0 (R165). -/
theorem shifter_ph_or_kept (s c : State) : (shifter s c).ph = 0 ∨ (shifter s c).tsr = c.tsr ∧ (shifter s c).act = c.act := by
  unfold shifter
  cases s.shiftCase
  case idle | advancePhase => exact .inr ⟨rfl, rfl⟩
  case startByte | nextBit | nextByte | endOfFrame => exact .inl rfl

/-- Where `sdo` changes, the edge ends with `sck` low (R143). -/
theorem sck_eq_false_of_sdo_ne {s t : State} (h : edge s = .next t) (hne : t.sdo ≠ s.sdo) : t.sck = false := by
  cases hr : s.ports.rst with
  | true =>
    obtain rfl := edge_next_of_rst h hr
    exact sck_eq_false_of_ph rfl
  | false =>
    obtain ⟨c, hc, rfl⟩ := edge_next_of_not_rst h hr
    obtain ⟨-, ktsr, kact, -⟩ := (commandUnit_cases hc).shifterRegisters_kept
    obtain ⟨qtsr, qact, -⟩ := sequencer_keeps s c
    obtain ⟨htsr, hact, hph⟩ := mergeWrites_shifterRegisters s c
    rcases shifter_ph_or_kept s (sequencer s c) with h0 | ⟨stsr, sact⟩
    · exact sck_eq_false_of_ph (hph.trans h0)
    · refine absurd (sdo_congr ?_ ?_) hne
      · rw [htsr, stsr, qtsr, ktsr]
      · rw [hact, sact, qact, kact]

/-- Settles O44: `sdo` is a function of TSR and ACT, and the shifter writes them only where it clears the phase. -/
theorem serialClockAndData : Obligations.SerialClockAndData := by
  unfold Obligations.SerialClockAndData
  refine ⟨sck_iff, fun _ => ⟨sdo_of_act, sdo_of_not_act⟩, fun s t h hne => ⟨sck_eq_false_of_sdo_ne h hne, ?_⟩⟩
  by_contra hsame
  push Not at hsame
  exact hne (sdo_congr hsame.1 hsame.2)

end Sys2Proof.Machine
end

section
/-! PROOFS. The timing of a frame (41_transmitter.md section 4, R158 to R160): where a frame stands a given number of edges after its
acceptance, and what the registers and the ports show there. -/

namespace Sys2Proof.Machine

/-! ### The acceptance edge -/

/-- The state right after a frame's acceptance (R158). -/
structure FrameAccepted (t0 : State) : Prop where
  fault : t0.fault = 0
  seq : t0.seq = .load
  idx : t0.idx = 0
  act : t0.act = false
  dre : t0.dre = true
  txc : t0.txc = false

/-- The acceptance edge is the command unit's write alone (R197). -/
theorem FrameStarts.commandUnit_eq {s t0 : State} (h : FrameStarts s t0) (hinv : s.Inv) : commandUnit s = .next t0 := by
  obtain ⟨ha, he, -⟩ := h
  obtain ⟨hrst, -⟩ := (accepted_iff s).mp ha
  obtain ⟨c, hc, rfl⟩ := edge_next_of_not_rst he hrst
  rw [mergeWrites_of_accepted c hinv.1 ha, hc]

/-- A frame's acceptance is one `startFrame` (R156, R157). -/
theorem FrameStarts.eq_startFrame {s t0 : State} (h : FrameStarts s t0) (hinv : s.Inv) : ∃ f, t0 = s.startFrame f := by
  have hwrites := commandUnit_cases (h.commandUnit_eq hinv)
  obtain ⟨ha, -, hload⟩ := h
  obtain ⟨-, -, hidle, -⟩ := (accepted_iff s).mp ha
  cases hwrites with
  | frame f => exact ⟨f, rfl⟩
  | nothing | word | divisor | fault => simp [hidle] at hload

/-- R42's third fact leaves the shifter at rest where a frame starts. -/
theorem FrameStarts.frameAccepted {s t0 : State} (h : FrameStarts s t0) (hinv : s.Inv) : FrameAccepted t0 := by
  obtain ⟨f, rfl⟩ := h.eq_startFrame hinv
  obtain ⟨-, -, hidle, hfault⟩ := (accepted_iff s).mp h.1
  obtain ⟨hact, hdre⟩ := factsOfR42_idle hinv.1 hidle
  exact { fault := hfault, seq := rfl, idx := rfl, act := hact, dre := hdre, txc := rfl }

/-! ### The stages of a frame -/

/-- Where a frame accepted at `t0` stands `k` edges after its acceptance (R160): two edges load and start byte 0, then the 32 bit periods of
`2*H` edges each follow, then come the completion flag and the return to IDLE. -/
inductive FrameStage (t0 : State) : Nat → State → Prop where
  | accepted : FrameAccepted t0 → FrameStage t0 0 t0
  | loaded (t : State) : FrameFixed t0 t → t.seq = .load → t.act = false → t.txc = false → t.tdr = t0.txbuf.b0 → t.dre = false →
      FrameStage t0 1 t
  | shifting (t : State) (n r : Nat) : n < 32 → r < 2 * t0.halfPeriod → FrameAt t0 t (n / 8) (n % 8) r →
      FrameStage t0 (2 + (2 * t0.halfPeriod * n + r)) t
  | complete (t : State) : FrameFixed t0 t → t.act = false → t.txc = true → t.seq = .waitc → t.dre = true →
      FrameStage t0 (2 + 64 * t0.halfPeriod) t
  | idle (t : State) : FrameFixed t0 t → t.act = false → t.txc = true → t.seq = .idle → FrameStage t0 (3 + 64 * t0.halfPeriod) t

/-! ### Bit periods and phases as numbers -/

/-- A frame's 32 bit periods take `64*H` edges. -/
theorem bitPosition_lt {H n r : Nat} (hn : n < 32) (hr : r < 2 * H) : 2 * H * n + r < 64 * H := by
  have hperiod : 2 * H * (n + 1) ≤ 2 * H * 32 := Nat.mul_le_mul_left _ hn
  rw [Nat.mul_add] at hperiod
  omega

/-- An edge lies in one bit period, at one phase. -/
theorem bitPosition_unique {H n n' r r' : Nat} (hr : r < 2 * H) (hr' : r' < 2 * H) (h : 2 * H * n + r = 2 * H * n' + r') :
    n = n' ∧ r = r' := by
  have hpos : 0 < 2 * H := by omega
  have hbit := congrArg (· / (2 * H)) h
  have hphase := congrArg (· % (2 * H)) h
  simp only [Nat.mul_add_div hpos, Nat.div_eq_of_lt hr, Nat.div_eq_of_lt hr', Nat.add_zero] at hbit
  simp only [Nat.mul_add_mod, Nat.mod_eq_of_lt hr, Nat.mod_eq_of_lt hr'] at hphase
  exact ⟨hbit, hphase⟩

/-- The second half of a bit period: R160's window for `sck` (R142). -/
theorem secondHalf_iff {H n r : Nat} (hn : n < 32) (hr : r < 2 * H) :
    (∃ m < 32, 2 + 2 * H * m + H ≤ 2 + (2 * H * n + r) ∧ 2 + (2 * H * n + r) < 2 + 2 * H * (m + 1)) ↔ H ≤ r := by
  constructor
  · rintro ⟨m, -, hlow, hhigh⟩
    rw [Nat.mul_add] at hhigh
    have hsame : 2 * H * n + r = 2 * H * m + (2 * H * n + r - 2 * H * m) := by omega
    obtain ⟨-, hphase⟩ := bitPosition_unique hr (by omega) hsame
    omega
  · intro h
    exact ⟨n, hn, by omega, by rw [Nat.mul_add]; omega⟩

/-- Outside the bit periods no such window is open. -/
theorem not_secondHalf {H k : Nat} (hk : k < 2 ∨ 2 + 64 * H ≤ k) : ¬ ∃ n < 32, 2 + 2 * H * n + H ≤ k ∧ k < 2 + 2 * H * (n + 1) := by
  rintro ⟨n, hn, hlow, hhigh⟩
  have hperiod : 2 * H * (n + 1) ≤ 2 * H * 32 := Nat.mul_le_mul_left _ hn
  omega

/-! ### Every run reaches its stage -/

/-- `frame_position` by bit period and phase. -/
theorem FrameAccepted.frameAt_of_run {t0 : State} (h : FrameAccepted t0) {ps : List Ports} (hp : ∀ p ∈ ps, p.rst = false) {n r : Nat}
    (hn : n < 32) (hr : r < 2 * t0.halfPeriod) (hl : ps.length = 2 + (2 * t0.halfPeriod * n + r)) :
    ∃ t, runPorts ps t0 = .next t ∧ FrameAt t0 t (n / 8) (n % 8) r := by
  have hpos : 0 < 2 * t0.halfPeriod := by omega
  have hbit : (2 * t0.halfPeriod * n + r) / (2 * t0.halfPeriod) = n := by
    rw [Nat.mul_add_div hpos, Nat.div_eq_of_lt hr, Nat.add_zero]
  have hphase : (2 * t0.halfPeriod * n + r) % (2 * t0.halfPeriod) = r := by rw [Nat.mul_add_mod, Nat.mod_eq_of_lt hr]
  have hbyte : (2 * t0.halfPeriod * n + r) / (16 * t0.halfPeriod) = n / 8 := by
    rw [show 16 * t0.halfPeriod = 2 * t0.halfPeriod * 8 by ring, ← Nat.div_div_eq_div_mul, hbit]
  have hat := frame_position t0 h.fault h.seq h.idx h.act h.dre h.txc _ ps hl hp (bitPosition_lt hn hr)
  rwa [hbit, hphase, hbyte] at hat

/-- The edge after the last bit period sets the completion flag (R149). -/
theorem FrameAccepted.complete_of_run {t0 : State} (h : FrameAccepted t0) {ps : List Ports} (hp : ∀ p ∈ ps, p.rst = false)
    (hl : ps.length = 2 + 64 * t0.halfPeriod) :
    ∃ t, runPorts ps t0 = .next t ∧ FrameFixed t0 t ∧ t.act = false ∧ t.txc = true ∧ t.seq = .waitc ∧ t.dre = true := by
  have hH : t0.halfPeriod = t0.div.toNat + 1 := rfl
  obtain rfl | ⟨qs, p, rfl⟩ := List.eq_nil_or_concat' ps
  · simp at hl
  rw [List.forall_mem_append, List.forall_mem_singleton] at hp
  rw [List.length_append, List.length_singleton] at hl
  obtain ⟨hqs, hrst⟩ := hp
  obtain ⟨t, hrun, hat⟩ := h.frameAt_of_run hqs (n := 31) (r := 2 * t0.halfPeriod - 1) (by omega) (by omega) (by omega)
  obtain ⟨u, hu, hend⟩ := hat.end_of_frame p hrst (by omega)
  exact ⟨u, (runPorts_snoc qs p t0 t hrun).trans hu, hend⟩

/-- The edge after the completion flag ends the frame (R153). -/
theorem FrameAccepted.idle_of_run {t0 : State} (h : FrameAccepted t0) {ps : List Ports} (hp : ∀ p ∈ ps, p.rst = false)
    (hl : ps.length = 3 + 64 * t0.halfPeriod) :
    ∃ t, runPorts ps t0 = .next t ∧ FrameFixed t0 t ∧ t.act = false ∧ t.txc = true ∧ t.seq = .idle := by
  obtain rfl | ⟨qs, p, rfl⟩ := List.eq_nil_or_concat' ps
  · simp at hl
  rw [List.forall_mem_append, List.forall_mem_singleton] at hp
  rw [List.length_append, List.length_singleton] at hl
  obtain ⟨hqs, hrst⟩ := hp
  obtain ⟨t, hrun, hfixed, hact, htxc, hseq, hdre⟩ := h.complete_of_run hqs (by omega)
  obtain ⟨hdiv, htxbuf, hfault⟩ := hfixed
  exact ⟨_, (runPorts_snoc qs p t0 t hrun).trans (frame_last_edge t p hrst hseq htxc hact hdre), ⟨hdiv, htxbuf, hfault⟩, hact, htxc, rfl⟩

/-- Under every host that does not reset, a frame goes through its stages, edge by edge (R160, R163). -/
theorem FrameAccepted.stage_of_run {t0 : State} (h : FrameAccepted t0) {ps : List Ports} (hp : ∀ p ∈ ps, p.rst = false)
    (hl : ps.length ≤ 3 + 64 * t0.halfPeriod) : ∃ t, runPorts ps t0 = .next t ∧ FrameStage t0 ps.length t := by
  have hpos : 0 < 2 * t0.halfPeriod := by simp
  obtain h0 | h1 | ⟨htwo, hshift⟩ | hcomplete | hidle : ps.length = 0 ∨ ps.length = 1 ∨
    (2 ≤ ps.length ∧ ps.length < 2 + 64 * t0.halfPeriod) ∨ ps.length = 2 + 64 * t0.halfPeriod ∨
    ps.length = 3 + 64 * t0.halfPeriod := by omega
  · obtain rfl := List.eq_nil_of_length_eq_zero h0
    exact ⟨t0, rfl, .accepted h⟩
  · obtain ⟨p, rfl⟩ := List.length_eq_one_iff.mp h1
    have hedge := frame_first_edge t0 p (hp p (by simp)) h.seq h.idx h.act h.dre
    exact ⟨_, (runPorts_snoc [] p t0 t0 rfl).trans hedge, .loaded _ ⟨rfl, rfl, h.fault⟩ h.seq h.act h.txc rfl rfl⟩
  · have hr := Nat.mod_lt (ps.length - 2) hpos
    have hn : (ps.length - 2) / (2 * t0.halfPeriod) < 32 := by rw [Nat.div_lt_iff_lt_mul hpos]; omega
    have hk : ps.length = 2 + (2 * t0.halfPeriod * ((ps.length - 2) / (2 * t0.halfPeriod)) + (ps.length - 2) % (2 * t0.halfPeriod)) := by
      rw [Nat.div_add_mod]; omega
    obtain ⟨t, hrun, hat⟩ := h.frameAt_of_run hp hn hr hk
    exact ⟨t, hrun, hk ▸ .shifting t _ _ hn hr hat⟩
  · obtain ⟨t, hrun, hfixed, hact, htxc, hseq, hdre⟩ := h.complete_of_run hp hcomplete
    exact ⟨t, hrun, hcomplete ▸ .complete t hfixed hact htxc hseq hdre⟩
  · obtain ⟨t, hrun, hfixed, hact, htxc, hseq⟩ := h.idle_of_run hp hidle
    exact ⟨t, hrun, hidle ▸ .idle t hfixed hact htxc hseq⟩

/-! ### What each stage shows -/

/-- The divisor, the buffer and the absence of a fault go through the whole frame (R245). -/
theorem FrameStage.fixed {t0 t : State} {k : Nat} (h : FrameStage t0 k t) : FrameFixed t0 t := by
  cases h with
  | accepted ha => exact ⟨rfl, rfl, ha.fault⟩
  | loaded _ hfixed => exact hfixed
  | shifting _ n r hn hr hat => exact hat.toFrameFixed
  | complete _ hfixed => exact hfixed
  | idle _ hfixed => exact hfixed

/-- R160's row of edge 0. -/
theorem FrameStage.accepted_of_zero {t0 t : State} {k : Nat} (h : FrameStage t0 k t) (hk : k = 0) : t.txc = false ∧ t.seq = .load := by
  cases h with
  | accepted ha => exact ⟨ha.txc, ha.seq⟩
  | loaded | shifting | complete | idle => omega

/-- R160's row of edge 1. -/
theorem FrameStage.loaded_of_one {t0 t : State} {k : Nat} (h : FrameStage t0 k t) (hk : k = 1) :
    t.tdr = t0.txbuf.b0 ∧ t.dre = false := by
  cases h with
  | loaded _ hfixed hseq hact htxc htdr hdre => exact ⟨htdr, hdre⟩
  | accepted | shifting | complete | idle => omega

/-- The stage read back: in bit period `n` at phase `r`, bit `n mod 8` of byte `n div 8` shifts. -/
theorem FrameStage.frameAt {t0 t : State} {k n r : Nat} (h : FrameStage t0 k t) (hn : n < 32) (hr : r < 2 * t0.halfPeriod)
    (hk : k = 2 + (2 * t0.halfPeriod * n + r)) : FrameAt t0 t (n / 8) (n % 8) r := by
  have hlt := bitPosition_lt hn hr
  cases h with
  | shifting _ m q hm hq hat =>
    obtain ⟨rfl, rfl⟩ := bitPosition_unique hq hr (Nat.add_left_cancel hk)
    exact hat
  | accepted | loaded | complete | idle => omega

/-- Byte `y` starts `16*H*y` edges after byte 0 does (R145, R148). -/
theorem FrameStage.byte_started {t0 t : State} {k y : Nat} {v : Byte} (h : FrameStage t0 k t) (hk : k = 2 + 16 * t0.halfPeriod * y)
    (hy : y < 4) (hv : t0.txbuf.byteAt y = some v) : t.tsr = v ∧ t.bitn = 0 ∧ t.ph = 0 ∧ t.act = true ∧ t.dre = true := by
  have hat := h.frameAt (n := 8 * y) (r := 0) (by omega) (by simp) (by rw [hk]; ring)
  rw [show 8 * y / 8 = y by omega, show 8 * y % 8 = 0 by omega] at hat
  obtain ⟨w, hw, htsr⟩ := hat.byte
  obtain rfl : v = w := Option.some.inj (hv.symm.trans hw)
  exact ⟨htsr.trans (BitVec.shiftLeft_zero v), BitVec.eq_of_toNat_eq hat.bitn, BitVec.eq_of_toNat_eq hat.ph, hat.act, by simp [hat.dre]⟩

/-- An edge after byte `y` starts, the byte after it, if there is one, is in the shift source (R152). -/
theorem FrameStage.byte_loaded {t0 t : State} {k y : Nat} {v : Byte} (h : FrameStage t0 k t) (hk : k = 3 + 16 * t0.halfPeriod * y)
    (hy : y < 3) (hv : t0.txbuf.byteAt (y + 1) = some v) :
    t.tdr = v ∧ t.dre = false ∧ t.seq = if y = 2 then .waitc else .load := by
  have hat := h.frameAt (n := 8 * y) (r := 1) (by omega) (by simp only [State.halfPeriod]; omega) (by rw [hk]; ring)
  rw [show 8 * y / 8 = y by omega, show 8 * y % 8 = 0 by omega] at hat
  have hne : y ≠ 3 := by omega
  have htdr : t0.txbuf.byteAt (y + 1) = some t.tdr := by simpa [hne] using hat.tdr
  exact ⟨Option.some.inj (htdr.symm.trans hv), by simp [hat.dre, hne], by simp [hat.seq, hne]⟩

/-- `sck` is low while no byte shifts (R142). -/
theorem sck_of_not_act {s : State} (h : s.act = false) : ¬ s.sck = true := by simp [State.sck, h]

/-- `sck` is high in the second half of each of the 32 bit periods, and nowhere else (R142, R160). -/
theorem FrameStage.sck_iff {t0 t : State} {k : Nat} (h : FrameStage t0 k t) :
    t.sck = true ↔ ∃ n < 32, 2 + 2 * t0.halfPeriod * n + t0.halfPeriod ≤ k ∧ k < 2 + 2 * t0.halfPeriod * (n + 1) := by
  cases h with
  | accepted ha => exact iff_of_false (sck_of_not_act ha.act) (not_secondHalf (by omega))
  | loaded _ _ _ hact => exact iff_of_false (sck_of_not_act hact) (not_secondHalf (by omega))
  | complete _ _ hact => exact iff_of_false (sck_of_not_act hact) (not_secondHalf (by omega))
  | idle _ _ hact => exact iff_of_false (sck_of_not_act hact) (not_secondHalf (by omega))
  | shifting _ n r hn hr hat =>
    have hhalf : t.halfPeriod = t0.halfPeriod := by simp only [State.halfPeriod, hat.div]
    rw [secondHalf_iff hn hr, Sys2Proof.Machine.sck_iff, hat.act, hat.ph, hhalf]
    simp only [true_and]

/-- The completion flag comes with the end of the last bit period (R149, R160). -/
theorem FrameStage.txc_iff {t0 t : State} {k : Nat} (h : FrameStage t0 k t) : t.txc = true ↔ 2 + 64 * t0.halfPeriod ≤ k := by
  cases h with
  | accepted ha => simp [ha.txc]
  | loaded _ _ _ _ htxc => simp only [htxc, Bool.false_eq_true, false_iff]; omega
  | shifting _ n r hn hr hat =>
    have hlt := bitPosition_lt hn hr
    simp only [hat.txc, Bool.false_eq_true, false_iff]
    omega
  | complete _ _ _ htxc => simp [htxc]
  | idle _ _ _ htxc => simp [htxc]

/-- No byte shifts from the completion flag on (R149). -/
theorem FrameStage.act_of_complete {t0 t : State} {k : Nat} (h : FrameStage t0 k t) (hk : 2 + 64 * t0.halfPeriod ≤ k) : t.act = false := by
  cases h with
  | complete _ _ hact => exact hact
  | idle _ _ hact => exact hact
  | shifting _ n r hn hr hat =>
    have hlt := bitPosition_lt hn hr
    omega
  | accepted | loaded => omega

/-- The sequencer is back in IDLE at the frame's last edge and not before (R153, R160). -/
theorem FrameStage.seq_idle_iff {t0 t : State} {k : Nat} (h : FrameStage t0 k t) : t.seq = .idle ↔ k = 3 + 64 * t0.halfPeriod := by
  cases h with
  | accepted ha => simp [ha.seq]
  | loaded _ _ hseq => simp only [hseq, reduceCtorEq, false_iff]; omega
  | shifting _ n r hn hr hat =>
    have hlt := bitPosition_lt hn hr
    have hbusy : t.seq ≠ .idle := by rw [hat.seq]; split <;> simp
    simp only [hbusy, false_iff]
    omega
  | complete _ _ _ _ hseq => simp [hseq]
  | idle _ _ _ _ hseq => simp [hseq]

/-- Settles O58: each row of the table is what the stage at that edge shows. -/
theorem frameTiming : Obligations.FrameTiming := by
  unfold Obligations.FrameTiming
  rintro s t0 ps k H hinv hstart hp rfl rfl hk
  obtain ⟨t, hrun, hstage⟩ := (hstart.frameAccepted hinv).stage_of_run hp hk
  obtain ⟨-, htxbuf, hfault⟩ := hstage.fixed
  refine ⟨t, hrun, htxbuf, hstage.accepted_of_zero, hstage.loaded_of_one, fun h => ?_, fun h => ?_, fun h => ?_, fun h => ?_,
    fun h => ?_, fun h => ?_, fun h => ?_, hstage.sck_iff, hstage.txc_iff, hstage.act_of_complete, ?_, ?_⟩
  · obtain ⟨htsr, -, -, hact, hdre⟩ := hstage.byte_started (y := 0) (by omega) (by omega) rfl
    exact ⟨htsr, hact, hdre⟩
  · obtain ⟨htdr, hdre, -⟩ := hstage.byte_loaded (y := 0) (by omega) (by omega) rfl
    exact ⟨htdr, hdre⟩
  · obtain ⟨htsr, hbitn, hph, hact, -⟩ := hstage.byte_started (y := 1) (by omega) (by omega) rfl
    exact ⟨htsr, hbitn, hph, hact⟩
  · obtain ⟨htdr, hdre, -⟩ := hstage.byte_loaded (y := 1) (by omega) (by omega) rfl
    exact ⟨htdr, hdre⟩
  · obtain ⟨htsr, hbitn, hph, hact, -⟩ := hstage.byte_started (y := 2) (by omega) (by omega) rfl
    exact ⟨htsr, hbitn, hph, hact⟩
  · exact hstage.byte_loaded (y := 2) (by omega) (by omega) rfl
  · obtain ⟨htsr, hbitn, hph, hact, -⟩ := hstage.byte_started (y := 3) (by omega) (by omega) rfl
    exact ⟨htsr, hbitn, hph, hact⟩
  · rw [busy_iff, ne_eq, hstage.seq_idle_iff]
    omega
  · rw [cmdReady_iff, hstage.seq_idle_iff]
    simp only [hfault, and_true]

end Sys2Proof.Machine
end

section
/-! PROOFS. The bits a frame puts on the wire (41_transmitter.md section 4, R159; 20_memory.md R57 and R58): the receiver samples the frame's
32 bits in order, one at each rise of `sck`. -/

namespace Sys2Proof.Machine

/-! ### A frame's bits by number -/

/-- A frame has four bytes. -/
theorem Frame.byteAt_isSome (f : Frame) {y : Nat} (hy : y < 4) : ∃ v, f.byteAt y = some v := by
  interval_cases y <;> exact ⟨_, rfl⟩

@[simp] theorem frameBits_length (f : Frame) : (frameBits f).length = 32 := rfl

/-- Wire bit `n` is bit `7 - (n mod 8)` of byte `n div 8` (R57, R159). -/
theorem frameBits_getElem? (f : Frame) {n : Nat} {v : Byte} (hn : n < 32) (hv : f.byteAt (n / 8) = some v) :
    (frameBits f)[n]? = some (v.getLsbD (7 - n % 8)) := by
  interval_cases n <;> (cases hv; rfl)

/-- R58: the word's bit order on the wire, from R85's byte order. -/
theorem frameBits_serialize (w : Word32) {n : Nat} (hn : n < 32) :
    (frameBits (serialize w))[n]? = some (w.getLsbD (wireIndex n)) := by
  have hi : n % 8 < 8 := Nat.mod_lt n (by omega)
  obtain h0 | h1 | h2 | h3 : n / 8 = 0 ∨ n / 8 = 1 ∨ n / 8 = 2 ∨ n / 8 = 3 := by omega
  · rw [frameBits_getElem? _ hn (by rw [h0]; rfl), serialize_b0_bit w hi]
    congr 2; grind
  · rw [frameBits_getElem? _ hn (by rw [h1]; rfl), serialize_b1_bit w hi]
    congr 2; grind
  · rw [frameBits_getElem? _ hn (by rw [h2]; rfl), serialize_b2_bit w hi]
    congr 2; grind
  · rw [frameBits_getElem? _ hn (by rw [h3]; rfl), serialize_b3_bit w hi]
    congr 2; grind

/-- The label stands at the top of the word, its bit 0 first, under both layouts (R83, R84). -/
theorem encodeWord_label_bit (p : Params) (label : Label) (sdi : Sdi) (data : Data) (ssm : Ssm) (pol : Policy) {n : Nat} (hn : n < 8) :
    (encodeWord p label sdi data ssm pol).getLsbD (31 - n) = label.getLsbD n := by
  have hback : 31 - (31 - n) = n := by omega
  rw [encodeWord_bit _ _ _ _ _ _ _ (by omega), if_neg (by omega)]
  cases p.layout
  · rw [pack, packFull_bit _ _ _ _ _ (by omega), hback]; grind
  · rw [pack, packLiteral_bit _ _ _ _ _ (by omega), hback]; grind

/-! ### The rises of `sck` -/

/-- How many of a frame's bits the receiver has sampled after edge `k`: bit `n` is sampled at edge `2 + 2*H*n + H` (R160). -/
def sampledBy (H k : Nat) : Nat := (k - 2 + H) / (2 * H)

/-- Edge `2 + 2*H*n + H` samples bit `n`. -/
theorem sampledBy_of_rise {H k n : Nat} (hH : 0 < H) (hk : k + 1 = 2 + (2 * H * n + H)) :
    sampledBy H k = n ∧ sampledBy H (k + 1) = n + 1 := by
  have hpos : 0 < 2 * H := by omega
  have hbefore : k - 2 + H = 2 * H * n + (2 * H - 1) := by omega
  have hafter : k + 1 - 2 + H = 2 * H * (n + 1) := by rw [Nat.mul_add]; omega
  simp only [sampledBy, hbefore, hafter]
  exact ⟨by rw [Nat.mul_add_div hpos, Nat.div_eq_of_lt (by omega), Nat.add_zero], Nat.mul_div_cancel_left _ hpos⟩

/-- No other edge samples a bit. -/
theorem sampledBy_of_not_rise {H k : Nat} (hH : 0 < H) (hk : ∀ n, k + 1 ≠ 2 + (2 * H * n + H)) : sampledBy H (k + 1) = sampledBy H k := by
  obtain hk2 | hk2 := Nat.lt_or_ge k 2
  · have hsame : k + 1 - 2 = k - 2 := by omega
    rw [sampledBy, hsame, sampledBy]
  · have hsucc : k + 1 - 2 + H = (k - 2 + H) + 1 := by omega
    have hndvd : ¬ 2 * H ∣ k - 2 + H + 1 := by
      rintro ⟨m, hm⟩
      cases m with
      | zero => omega
      | succ n => exact hk n (by rw [Nat.mul_add] at hm; omega)
    rw [sampledBy, hsucc, Nat.succ_div_of_not_dvd hndvd, sampledBy]

/-- An edge that samples none of the 32 bits leaves the bits sampled as they are. -/
theorem take_sampledBy_of_not_rise (f : Frame) {H k : Nat} (hH : 0 < H) (hk : ¬ ∃ n < 32, k + 1 = 2 + (2 * H * n + H)) :
    (frameBits f).take (sampledBy H (k + 1)) = (frameBits f).take (sampledBy H k) := by
  by_cases hrise : ∃ n, k + 1 = 2 + (2 * H * n + H)
  · -- One edge past the frame's last bit period, with all 32 bits sampled.
    obtain ⟨n, hn⟩ := hrise
    have hall : 32 ≤ n := Nat.le_of_not_lt fun hlt => hk ⟨n, hlt, hn⟩
    obtain ⟨hbefore, hafter⟩ := sampledBy_of_rise hH hn
    rw [hbefore, hafter, List.take_of_length_le (by simp; omega), List.take_of_length_le (by simp; omega)]
  · rw [sampledBy_of_not_rise hH (not_exists.mp hrise)]

/-- In a frame `sck` rises at edge `2 + 2*H*n + H` of each of its bit periods `n`, and at no other (R159, R160). -/
theorem FrameStage.rises_iff {t0 t u : State} {k : Nat} (ht : FrameStage t0 k t) (hu : FrameStage t0 (k + 1) u) :
    t.sck = false ∧ u.sck = true ↔ ∃ n < 32, k + 1 = 2 + (2 * t0.halfPeriod * n + t0.halfPeriod) := by
  have hH : 0 < t0.halfPeriod := Nat.succ_pos _
  rw [← Bool.not_eq_true, ht.sck_iff, hu.sck_iff]
  generalize t0.halfPeriod = H at hH
  constructor
  · rintro ⟨hlow, n, hn, hstart, hend⟩
    refine ⟨n, hn, ?_⟩
    by_contra hne
    exact hlow ⟨n, hn, by omega, by omega⟩
  · rintro ⟨n, hn, hk⟩
    refine ⟨?_, n, hn, by omega, by rw [Nat.mul_add]; omega⟩
    have hk' : k = 2 + (2 * H * n + (H - 1)) := by omega
    rw [hk', secondHalf_iff hn (by omega)]
    omega

/-- What a receiver samples between two states (R144). -/
theorem sampledBit_of_rise {t u : State} (h : t.sck = false ∧ u.sck = true) : sampledBit t u = [u.sdo] := by
  simp [sampledBit, h]

theorem sampledBit_of_not_rise {t u : State} (h : ¬ (t.sck = false ∧ u.sck = true)) : sampledBit t u = [] := by
  simpa [sampledBit] using h

/-- While bit `n` of a frame shifts, `sdo` shows it (R143, R147). -/
theorem FrameAt.sdo_eq {t0 t : State} {n r : Nat} (h : FrameAt t0 t (n / 8) (n % 8) r) (hn : n < 32) :
    (frameBits t0.txbuf)[n]? = some t.sdo := by
  obtain ⟨v, hv, htsr⟩ := h.byte
  rw [frameBits_getElem? _ hn hv, sdo_of_act h.act, htsr, BitVec.getLsbD_shiftLeft]
  have hlt : ¬ 7 < n % 8 := by omega
  simp [hlt]

/-- The bits sampled so far are the first of the frame's bits. -/
theorem FrameAccepted.wireBits_eq {t0 : State} (h : FrameAccepted t0) (ps : List Ports) (hp : ∀ p ∈ ps, p.rst = false)
    (hl : ps.length ≤ 3 + 64 * t0.halfPeriod) : wireBits ps t0 = (frameBits t0.txbuf).take (sampledBy t0.halfPeriod ps.length) := by
  have hH : 0 < t0.halfPeriod := Nat.succ_pos _
  induction ps using List.reverseRecOn with
  | nil =>
    have hnone : sampledBy t0.halfPeriod 0 = 0 := Nat.div_eq_of_lt (by omega)
    rw [List.length_nil, hnone, List.take_zero, wireBits]
  | append_singleton qs p ih =>
    obtain ⟨u, hrunu, hu⟩ := h.stage_of_run hp hl
    rw [List.forall_mem_append] at hp
    rw [List.length_append, List.length_singleton] at hl hu ⊢
    obtain ⟨t, hrun, ht⟩ := h.stage_of_run hp.1 (by omega)
    rw [runPorts_snoc qs p t0 t hrun] at hrunu
    rw [wireBits_snoc qs p t0 t u hrun hrunu, ih hp.1 (by omega)]
    by_cases hrise : ∃ n < 32, qs.length + 1 = 2 + (2 * t0.halfPeriod * n + t0.halfPeriod)
    · rw [sampledBit_of_rise ((ht.rises_iff hu).mpr hrise)]
      obtain ⟨n, hn, hk⟩ := hrise
      obtain ⟨hbefore, hafter⟩ := sampledBy_of_rise hH hk
      have hsdo := (hu.frameAt hn (by omega) hk).sdo_eq hn
      rw [hbefore, hafter, List.take_add_one, hsdo, Option.toList_some]
    · rw [sampledBit_of_not_rise fun h => hrise ((ht.rises_iff hu).mp h), List.append_nil, take_sampledBy_of_not_rise _ hH hrise]

/-- Over a whole frame the receiver samples the frame's 32 bits (R159). -/
theorem FrameAccepted.wireBits_eq_frameBits {t0 : State} (h : FrameAccepted t0) {ps : List Ports} (hp : ∀ p ∈ ps, p.rst = false)
    (hl : ps.length = 3 + 64 * t0.halfPeriod) : wireBits ps t0 = frameBits t0.txbuf := by
  have hall : 32 ≤ sampledBy t0.halfPeriod (3 + 64 * t0.halfPeriod) := by
    rw [sampledBy, Nat.le_div_iff_mul_le (by simp)]
    omega
  rw [h.wireBits_eq ps hp hl.le, hl, List.take_of_length_le (by simpa using hall)]

/-! ### The frame of an XMIT.E -/

/-- An XMIT.E that starts a frame sends the word's buffer (R156). -/
theorem FrameStarts.txbuf_of_xmitE {s t0 : State} (h : FrameStarts s t0) (hinv : s.Inv) (hcmd : s.ports.cmd = 0x30#8) :
    t0.txbuf = serialize s.word := by
  have hexec := h.commandUnit_eq hinv
  obtain ⟨ha, -, hload⟩ := h
  obtain ⟨-, -, hidle, -⟩ := (accepted_iff s).mp ha
  rw [commandUnit_of_decode ha (hcmd ▸ decode_xmitE), exec, execXmitE] at hexec
  -- The two faults leave the sequencer idle.
  split at hexec
  · split at hexec
    · exact next_inj.mp hexec ▸ rfl
    · simp [← next_inj.mp hexec, hidle] at hload
  · simp [← next_inj.mp hexec, hidle] at hload

/-- Settles O59: the receiver samples the frame's bits, which for XMIT.E are the word's in R58's order. -/
theorem wireSequence : Obligations.WireSequence := by
  unfold Obligations.WireSequence
  intro s t0 ps hinv hstart hp hl
  rw [(hstart.frameAccepted hinv).wireBits_eq_frameBits hp hl]
  refine ⟨frameBits_length _, fun n hn => ?_, fun hcmd => ?_⟩
  · obtain ⟨v, hv⟩ := t0.txbuf.byteAt_isSome (y := n / 8) (by omega)
    exact ⟨v, hv, frameBits_getElem? _ hn hv⟩
  · rw [hstart.txbuf_of_xmitE hinv hcmd]
    have hword := @frameBits_serialize s.word
    refine ⟨fun n => hword, hword (n := 24) (by omega), fun p label sdi data ssm pol hw n hn => ?_⟩
    rw [hword (by omega), wireIndex, if_pos hn, hw, encodeWord_label_bit p label sdi data ssm pol hn]

end Sys2Proof.Machine
end

section
/-! PROOFS. Acceptance and the edge (42_command.md sections 1 and 2): what an accepted word does, which part writes each register, and that the
ports a host drives matter only where a command is accepted. -/

namespace Sys2Proof.Machine

/-! ### Acceptance and dispatch -/

/-- Acceptance by the ports and readiness (R190). -/
theorem accepted_iff_cmdReady (s : State) :
    s.accepted = true ↔ s.ports.rst = false ∧ s.ports.cmdValid = true ∧ s.cmdReady = true := by
  simp [State.accepted, and_assoc]

theorem accepted_eq_false_of_not_cmdReady {s : State} (h : s.cmdReady = false) : s.accepted = false := by
  simp [State.accepted, h]

theorem commandUnit_of_not_accepted {s : State} (h : s.accepted = false) : commandUnit s = .next s := by
  simp [commandUnit, h]

/-- An accepted illegal word raises E_ILLEGAL (R212). -/
theorem commandUnit_of_illegal {s : State} (ha : s.accepted = true) (hw : decode s.ports.cmd = none) :
    commandUnit s = .next (s.raise .illegal) := by
  simp [commandUnit, ha, hw, execIllegal]

/-- Settles O34: acceptance by its definition, and the command unit by whether the word is accepted. -/
theorem acceptanceRule : Obligations.AcceptanceRule := by
  unfold Obligations.AcceptanceRule
  exact fun s => ⟨cmdReady_iff s, accepted_iff_cmdReady s, fun ha _ => commandUnit_of_decode ha, commandUnit_of_not_accepted⟩

/-- Family N's words below 0x10 (R75): NOP is the only legal one. -/
theorem decode_of_lt_sixteen (w : CmdWord) (h : w.toNat < 16) : decode w = if w = 0x00#8 then some .nop else none := by
  revert w; decide

/-- The command unit changes nothing where NOP is presented, accepted or not (R194). -/
theorem commandUnit_of_nop {s : State} (h : s.ports.cmd = 0x00#8) : commandUnit s = .next s := by
  cases ha : s.accepted with
  | true => exact commandUnit_of_decode ha (h ▸ decode_nop)
  | false => exact commandUnit_of_not_accepted ha

/-- Settles O22: NOP's own writes are none, so its edge is the sequencer's and the shifter's. -/
theorem nopChangesNothing : Obligations.NopChangesNothing := by
  unfold Obligations.NopChangesNothing
  exact ⟨fun _ => rfl, fun s hr _ hcmd => edge_of_commandUnit s s hr (commandUnit_of_nop hcmd),
    fun _ => accepted_eq_false_of_not_cmdReady, decode_of_lt_sixteen, rfl⟩

/-! ### The three parts of an edge -/

/-- A frame has no byte past its fourth. -/
theorem Frame.lt_four_of_byteAt {f : Frame} {i : Nat} {v : Byte} (h : f.byteAt i = some v) : i < 4 := by
  by_contra hge
  obtain ⟨j, rfl⟩ := Nat.exists_eq_add_of_le' (Nat.le_of_not_lt hge)
  cases h

/-- LOAD with room in the shift source, for an index that exists: the byte is loaded and no free value is drawn (R152). -/
theorem sequencer_load_byteAt {s : State} (c : State) {v : Byte} (hq : s.seq = .load) (hd : s.dre = true)
    (hv : s.txbuf.byteAt s.idx.toNat = some v) :
    sequencer s c = { c with tdr := v, dre := false, idx := s.idx + 1#3, seq := if s.idx = 3#3 then .waitc else c.seq } := by
  have hlt := Frame.lt_four_of_byteAt hv
  have hbyte : s.nextFrameByte = v := Option.some.inj ((byteAt_idx (Nat.le_of_lt_succ hlt)).symm.trans hv)
  rw [sequencer_load s c hq hd, loadByte, hbyte, if_pos hlt]

/-- WAITC by the completion flag (R153). -/
theorem sequencer_of_waitc {s : State} (c : State) (hq : s.seq = .waitc) :
    sequencer s c = if s.txc = true then { c with seq := .idle } else c := by
  cases hc : s.txc with
  | true => exact sequencer_waitc s c hq hc
  | false => exact sequencer_waitc_wait s c hq hc

/-- Settles O60: the command unit by acceptance and decoding, the sequencer by its state, and the edge by R42's third fact, which keeps the
parts' writes apart. -/
theorem edgeRunsTheThreeParts : Obligations.EdgeRunsTheThreeParts := by
  unfold Obligations.EdgeRunsTheThreeParts
  refine ⟨edge_reset, fun s => ?_, fun s c => ⟨sequencer_idle s c, sequencer_load_wait s c, fun v => sequencer_load_byteAt c,
    fun hinv hq => ?_, sequencer_of_waitc c⟩, fun s c hinv hr hc => ?_⟩
  · have haccept := accepted_iff_cmdReady s
    cases ha : s.accepted with
    | false => rw [if_neg (fun h => by simp [haccept.mpr h] at ha), commandUnit_of_not_accepted ha]
    | true =>
      rw [if_pos (haccept.mp ha)]
      cases hw : decode s.ports.cmd with
      | some i => exact commandUnit_of_decode ha hw
      | none => exact commandUnit_of_illegal ha hw
  · obtain ⟨-, -, hidx, -⟩ := (inv_load_iff hq).mp hinv
    exact ⟨_, byteAt_idx hidx⟩
  · rw [edge_of_commandUnit s c hr hc, mergeWrites_eq s c fun hq => (factsOfR42_idle hinv.1 hq).1]

/-! ### Which part writes which register -/

/-- The sequencer fills the shift source only where it has room (R152). -/
theorem sequencer_dre_of_not_dre {s : State} (c : State) (h : s.dre = false) : (sequencer s c).dre = c.dre := by
  cases hq : s.seq with
  | idle => rw [sequencer_idle s c hq]
  | load => rw [sequencer_load_wait s c hq h]
  | waitc => rw [sequencer_of_waitc c hq]; split <;> rfl

/-- Where no byte shifts, the shifter does not write TXC (R149). -/
theorem shifter_txc_of_not_act {s : State} (c : State) (h : s.act = false) : (shifter s c).txc = c.txc := by
  rw [shifter_txc, if_neg (shiftCase_ne_endOfFrame_of_started (by simp [h]))]

/-- Settles O45: the parts' own registers by the three frame lemmas, DRE by which way it goes, SEQ, IDX and TXC by a busy block accepting
nothing and, in reachable states, by R42's third fact. -/
theorem writesAreExclusive : Obligations.WritesAreExclusive := by
  unfold Obligations.WritesAreExclusive
  refine ⟨fun s c hc => (commandUnit_cases hc).shifterRegisters_kept, fun s c => ?_, fun s c => ?_,
    fun s c => ⟨sequencer_dre_of_not_dre c, shifter_dre_of_dre c⟩,
    fun s c => ⟨fun hq hc => commandUnit_of_busy hc hq, fun hq => by rw [sequencer_idle s c hq]; exact ⟨rfl, rfl⟩⟩,
    fun s c hs => ⟨fun hq hc => by rw [commandUnit_of_busy hc hq], fun hq => ?_⟩⟩
  · obtain ⟨htsr, hact, hbitn, hph, htxc, hword, hwvalid, hdiv, hinitd, hfault, htxbuf, -, -⟩ := sequencer_keeps s c
    exact ⟨⟨hdiv, hinitd, hword, hwvalid, hfault, htxbuf⟩, htsr, hact, hbitn, hph, htxc⟩
  · obtain ⟨htdr, hidx, hseq, hword, hwvalid, hdiv, hinitd, hfault, htxbuf, -, -⟩ := shifter_keeps s c
    exact ⟨⟨hdiv, hinitd, hword, hwvalid, hfault, htxbuf⟩, htdr, hseq, hidx⟩
  · obtain ⟨hact, -⟩ := factsOfR42_idle (reachable_inv hs).1 hq
    exact ⟨hact, shifter_txc_of_not_act c hact⟩

/-! ### The host's ports -/

/-- Where the command unit writes nothing, no register is written twice, in any state (R198). -/
theorem mergeWrites_self (s : State) : mergeWrites s s = shifter s (sequencer s s) := by
  have htwice : s.txcWrittenTwice s = false := by by_cases hq : s.seq = .idle <;> simp [State.txcWrittenTwice, hq]
  simp [mergeWrites, settleTxc, htwice]

/-- The sequencer and the shifter together do not look at the ports. -/
theorem mergeWrites_drivenBy (s : State) (p : Ports) :
    mergeWrites (s.drivenBy p) (s.drivenBy p) = (mergeWrites s s).drivenBy p := by
  rw [mergeWrites_self, mergeWrites_self, sequencer_drivenBy, shifter_drivenBy]

/-- An edge that accepts no command reads `rst` alone of the ports, and passes them on (R192). -/
theorem edge_drivenBy_of_not_accepted {s : State} {p : Ports} (ha : (s.drivenBy p).accepted = false) :
    edge (s.drivenBy p) = .next ((if p.rst = true then s.resetEdge else mergeWrites s s).drivenBy p) := by
  cases hr : p.rst with
  | true => exact edge_reset (s.drivenBy p) hr
  | false => rw [edge_unaccepted (s.drivenBy p) hr ha, mergeWrites_drivenBy]; rfl

/-- Settles O38: without an acceptance both edges are one state, chosen by `rst` alone, under each host's ports. -/
theorem operandsSampledOnlyAtAcceptance : Obligations.OperandsSampledOnlyAtAcceptance := by
  unfold Obligations.OperandsSampledOnlyAtAcceptance
  intro s t p q hrst hp hq h
  rw [edge_drivenBy_of_not_accepted hp, next_inj] at h
  rw [edge_drivenBy_of_not_accepted hq, ← hrst, ← h]
  rfl

/-- The host's side of the state is the same in both. -/
def SameHost (s t : State) : Prop := t.ports = s.ports ∧ t.phase = s.phase ∧ t.program = s.program

theorem SameHost.trans {s t u : State} (h : SameHost s t) (h' : SameHost t u) : SameHost s u := by
  obtain ⟨hports, hphase, hprogram⟩ := h
  obtain ⟨hports', hphase', hprogram'⟩ := h'
  exact ⟨hports'.trans hports, hphase'.trans hphase, hprogram'.trans hprogram⟩

theorem CommandUnitWrites.sameHost {s c : State} (h : CommandUnitWrites s c) : SameHost s c := by
  cases h <;> exact ⟨rfl, rfl, rfl⟩

theorem sequencer_sameHost (s c : State) : SameHost c (sequencer s c) := by
  unfold sequencer
  split
  · exact ⟨rfl, rfl, rfl⟩
  · split <;> exact ⟨rfl, rfl, rfl⟩
  · split <;> exact ⟨rfl, rfl, rfl⟩

theorem shifter_sameHost (s c : State) : SameHost c (shifter s c) := by
  unfold shifter
  cases s.shiftCase <;> exact ⟨rfl, rfl, rfl⟩

theorem mergeWrites_sameHost (s c : State) : SameHost c (mergeWrites s c) := by
  rw [mergeWrites, settleTxc_keeps]
  exact (sequencer_sameHost s c).trans (shifter_sameHost s (sequencer s c))

/-- An edge of the block writes nothing on the host's side (R81). -/
theorem edge_sameHost {s t : State} (h : edge s = .next t) : SameHost s t := by
  cases hr : s.ports.rst with
  | true => exact edge_next_of_rst h hr ▸ ⟨rfl, rfl, rfl⟩
  | false =>
    obtain ⟨c, hc, rfl⟩ := edge_next_of_not_rst h hr
    exact (commandUnit_cases hc).sameHost.trans (mergeWrites_sameHost s c)

/-- Settles O37: a block that is not ready accepts nothing, so whatever is presented is not read (R192); the program's host holds its line
until acceptance. -/
theorem unreadyCommandHasNoEffect : Obligations.UnreadyCommandHasNoEffect := by
  unfold Obligations.UnreadyCommandHasNoEffect
  refine ⟨fun s t p q hready hp hq => ?_, fun s t hphase ha hstep => ?_⟩
  · exact operandsSampledOnlyAtAcceptance s t p q (hp.trans hq.symm) (accepted_eq_false_of_not_cmdReady hready)
      (accepted_eq_false_of_not_cmdReady hready)
  · obtain ⟨u, hu, rfl⟩ := (step_next_iff s t).mp hstep
    obtain ⟨kports, kphase, kprogram⟩ := edge_sameHost hu
    rw [driver_hold_unaccepted s u hphase ha]
    exact ⟨kports, kphase.trans hphase, kprogram⟩

end Sys2Proof.Machine
end

section
/-! PROOFS. The faults (60_exceptions.md sections 1 and 2): which accepted command raises which code, that FAULT alone is written for it, and
that a block with a fault takes no command. -/

namespace Sys2Proof.Machine

/-! ### The illegal words -/

/-- R76's list of the illegal words, by a word's fields as numbers: op above 3, a reserved bit set, or `pol = 11`. -/
theorem decode_eq_none_iff (w : CmdWord) :
    decode w = none ↔
      (4 ≤ w.toNat / 16 ∨
       (w.toNat / 16 = 0 ∨ w.toNat / 16 = 2) ∧ w.toNat % 16 ≠ 0 ∨
       w.toNat / 16 = 1 ∧ (w.toNat / 4 % 4 = 3 ∨ w.toNat / 4 % 4 ≠ 0 ∧ w.toNat / 2 % 2 = 1 ∨ w.toNat % 2 = 1) ∨
       w.toNat / 16 = 3 ∧ w.toNat % 8 ≠ 0) := by
  revert w; decide

/-- All but eight of the 256 words are illegal (R76). -/
theorem illegalWords_length : ((List.range 256).filter (fun n => decide (decode (BitVec.ofNat 8 n) = none))).length = 248 := by
  have hlegal : ((List.range 256).filter (fun n => !decide (decode (BitVec.ofNat 8 n) = none))).Perm
      [0x00, 0x10, 0x12, 0x14, 0x18, 0x20, 0x30, 0x38] := by
    rw [List.perm_ext_iff_of_nodup (List.nodup_range.filter _) (by decide)]
    intro n
    have hn := decode_isSome_iff (BitVec.ofNat 8 n)
    simp only [← BitVec.toNat_inj, List.mem_cons, BitVec.toNat_ofNat, Option.isSome_iff_ne_none] at hn
    simp [hn]
    omega
  have hsplit := List.length_eq_length_filter_add (l := List.range 256) (fun n => decide (decode (BitVec.ofNat 8 n) = none))
  rw [hlegal.length_eq, List.length_range] at hsplit
  simpa using hsplit.symm

/-- Settles O4: R76's list and its count over the 256 words, and the command unit's answer to an accepted illegal word. -/
theorem illegalWordsRaiseIllegal : Obligations.IllegalWordsRaiseIllegal := by
  unfold Obligations.IllegalWordsRaiseIllegal
  exact ⟨decode_eq_none_iff, illegalWords_length, fun _ => commandUnit_of_illegal⟩

/-! ### The faults of XMIT -/

/-- XMIT.E before INIT (R214). -/
theorem exec_xmitE_of_not_initd {s : State} (hi : s.initd = false) : exec .xmitE s = .next (s.raise .noinit) := by
  simp [exec, execXmitE, hi]

/-- XMIT.P before INIT (R214). -/
theorem exec_xmitP_of_not_initd {s : State} (hi : s.initd = false) : exec .xmitP s = .next (s.raise .noinit) := by
  simp [exec, execXmitP, hi]

/-- XMIT.E after INIT and before any encode command (R215). -/
theorem exec_xmitE_of_not_wvalid {s : State} (hi : s.initd = true) (hv : s.wvalid = false) :
    exec .xmitE s = .next (s.raise .noword) := by simp [exec, execXmitE, hi, hv]

/-- XMIT.E after INIT with a word to send (R156). -/
theorem exec_xmitE_of_wvalid {s : State} (hi : s.initd = true) (hv : s.wvalid = true) :
    exec .xmitE s = .next (s.startFrame (serialize s.word)) := by simp [exec, execXmitE, hi, hv]

/-- Settles O30: XMIT.E and XMIT.P by INITD and WVALID; XMIT.P either raises E_NOINIT or starts a frame, which keeps FAULT. -/
theorem xmitFaults : Obligations.XmitFaults := by
  unfold Obligations.XmitFaults
  refine ⟨fun _ => exec_xmitE_of_not_initd, fun _ => exec_xmitP_of_not_initd, fun _ => exec_xmitE_of_not_wvalid, fun s t hf h => ?_⟩
  cases hi : s.initd with
  | false =>
    obtain rfl := next_inj.mp (exec_xmitP_of_not_initd hi ▸ h)
    simp [FaultCode.code]
  | true =>
    obtain rfl := next_inj.mp (exec_xmitP_of_initd hi ▸ h)
    simp [hf]

/-! ### What raises a fault -/

/-- What makes an accepted command raise each code (R212 to R215). R216's order is in the causes:
E_NOWORD's needs INITD, and only a legal word has one of the other three. -/
def FaultCause (s : State) : FaultCode → Prop
  | .illegal => decode s.ports.cmd = none
  | .reinit => decode s.ports.cmd = some .init ∧ s.initd = true
  | .noinit => (decode s.ports.cmd = some .xmitE ∨ decode s.ports.cmd = some .xmitP) ∧ s.initd = false
  | .noword => decode s.ports.cmd = some .xmitE ∧ s.initd = true ∧ s.wvalid = false

/-- An accepted command raises the fault it is a cause of (R210). -/
theorem commandUnit_of_cause {s : State} {code : FaultCode} (ha : s.accepted = true) (h : FaultCause s code) :
    commandUnit s = .next (s.raise code) := by
  cases code with
  | illegal => exact commandUnit_of_illegal ha h
  | reinit =>
    obtain ⟨hd, hi⟩ := h
    exact (commandUnit_of_decode ha hd).trans (exec_init_of_initd hi)
  | noinit =>
    obtain ⟨hd | hd, hi⟩ := h
    · exact (commandUnit_of_decode ha hd).trans (exec_xmitE_of_not_initd hi)
    · exact (commandUnit_of_decode ha hd).trans (exec_xmitP_of_not_initd hi)
  | noword =>
    obtain ⟨hd, hi, hv⟩ := h
    exact (commandUnit_of_decode ha hd).trans (exec_xmitE_of_not_wvalid hi hv)

/-- An accepted command has the cause of a fault, or it leaves FAULT alone (R210). -/
theorem faultCause_or_fault_kept {s c : State} (ha : s.accepted = true) (h : commandUnit s = .next c) :
    (∃ code, FaultCause s code) ∨ c.fault = s.fault := by
  cases hd : decode s.ports.cmd with
  | none => exact .inl ⟨.illegal, hd⟩
  | some i =>
    rw [commandUnit_of_decode ha hd] at h
    cases i with
    | nop | encMan | encOdd | encEven => exact .inr (next_inj.mp h ▸ rfl)
    | init =>
      cases hi : s.initd with
      | true => exact .inl ⟨.reinit, hd, hi⟩
      | false => exact .inr (next_inj.mp (exec_init_of_not_initd hi ▸ h) ▸ rfl)
    | xmitE =>
      cases hi : s.initd with
      | false => exact .inl ⟨.noinit, .inl hd, hi⟩
      | true =>
        cases hv : s.wvalid with
        | false => exact .inl ⟨.noword, hd, hi, hv⟩
        | true => exact .inr (next_inj.mp (exec_xmitE_of_wvalid hi hv ▸ h) ▸ rfl)
    | xmitP =>
      cases hi : s.initd with
      | false => exact .inl ⟨.noinit, .inr hd, hi⟩
      | true => exact .inr (next_inj.mp (exec_xmitP_of_initd hi ▸ h) ▸ rfl)

/-- Where the command unit changes FAULT, it accepted a command with a fault's cause, and raised that fault (R210). -/
theorem raised_of_fault_ne {s c : State} (h : commandUnit s = .next c) (hne : c.fault ≠ s.fault) :
    s.accepted = true ∧ ∃ code, FaultCause s code ∧ c = s.raise code := by
  cases ha : s.accepted with
  | false => exact absurd (next_inj.mp (commandUnit_of_not_accepted ha ▸ h) ▸ rfl) hne
  | true =>
    obtain ⟨code, hcause⟩ := (faultCause_or_fault_kept ha h).resolve_right hne
    exact ⟨rfl, code, hcause, (next_inj.mp (commandUnit_of_cause ha hcause ▸ h)).symm⟩

/-- No fault's code is the 0 that says there is none (R211). -/
theorem one_le_faultCode_toNat (code : FaultCode) : 1 ≤ code.code.toNat := by cases code <;> decide

/-- Settles O31: a change of FAULT is `raise` by an accepted command, which is accepted only from FAULT = 0 and without reset. -/
theorem raisingAFaultWritesOnlyFault : Obligations.RaisingAFaultWritesOnlyFault := by
  unfold Obligations.RaisingAFaultWritesOnlyFault
  intro s c hc hne
  obtain ⟨ha, code, -, rfl⟩ := raised_of_fault_ne hc hne
  obtain ⟨hr, -, -, hf⟩ := (accepted_iff s).mp ha
  exact ⟨ha, hf, one_le_faultCode_toNat code, faultCode_toNat_le code, rfl, edge_of_commandUnit s _ hr hc⟩

/-- Settles O32: each cause raises its own code, and only E_REINIT's cause gives code 2, since the codes differ. -/
theorem faultPriority : Obligations.FaultPriority := by
  unfold Obligations.FaultPriority
  refine fun s => ⟨fun ha => ⟨fun hd => commandUnit_of_cause (code := .illegal) ha hd,
    fun hd hi => commandUnit_of_cause (code := .noinit) ha ⟨.inl hd, hi⟩,
    fun hd hi => commandUnit_of_cause (code := .noinit) ha ⟨.inr hd, hi⟩,
    fun hd hi hv => commandUnit_of_cause (code := .noword) ha ⟨hd, hi, hv⟩, fun c hc h2 => ?_⟩,
    fun hr => ⟨by simp [State.accepted, hr], _, edge_reset s hr, rfl⟩⟩
  obtain ⟨-, -, -, hf⟩ := (accepted_iff s).mp ha
  obtain ⟨-, code, hcause, rfl⟩ := raised_of_fault_ne hc (by simp [h2, hf])
  cases code with
  | reinit => exact hcause
  | illegal | noinit | noword => simp [FaultCode.code] at h2

/-! ### A block with a fault -/

/-- A block with a fault is not ready (R191). -/
theorem cmdReady_eq_false_of_fault {s : State} (hf : s.fault ≠ 0) : s.cmdReady = false :=
  Bool.eq_false_of_not_eq_true fun h => hf ((cmdReady_iff s).mp h).2

/-- A block with a fault has no frame in progress, so no byte shifts and none waits (R42). -/
theorem idle_of_fault {s : State} (h : s.FactsOfR42) (hf : s.fault ≠ 0) : s.seq = .idle ∧ s.act = false ∧ s.dre = true := by
  have hq : s.seq = .idle := by
    obtain ⟨-, -, -, -, -, -, hbusy⟩ := h
    by_contra hq
    exact hf (hbusy hq).2
  exact ⟨hq, factsOfR42_idle h hq⟩

/-- The `buf` port shows the word alone (R22). -/
theorem outputs_buf_congr {s t : State} (h : t.word = s.word) : t.outputs.buf = s.outputs.buf := by simp only [State.outputs, h]

/-- The serial lines while no byte shifts (R142, R143). -/
theorem serialLines_of_not_act {s : State} (ha : s.act = false) : s.sck = false ∧ s.sdo = Config.sdoIdle :=
  ⟨Bool.eq_false_of_not_eq_true (sck_of_not_act ha), sdo_of_not_act ha⟩

/-- Settles O51: a fault shuts acceptance off, so the edge keeps the command unit's registers; with the sequencer and the shifter idle it
changes nothing at all. -/
theorem faultStopsCommands : Obligations.FaultStopsCommands := by
  unfold Obligations.FaultStopsCommands
  intro s hf hr
  have hready := cmdReady_eq_false_of_fault hf
  have ha := accepted_eq_false_of_not_cmdReady hready
  obtain ⟨-, kinitd, kword, kwvalid, kfault, -⟩ := mergeWrites_sameCommandRegisters s s
  refine ⟨hready, ha, _, edge_unaccepted s hr ha, kfault, kword, outputs_buf_congr kword, kinitd, kwvalid, fun hinv => ?_⟩
  obtain ⟨hseq, hact, hdre⟩ := idle_of_fault hinv.1 hf
  obtain ⟨hsck, hsdo⟩ := serialLines_of_not_act hact
  rw [mergeWrites_idle s s hseq hact hdre]
  exact ⟨hsck, hsdo, hsck, hsdo⟩

end Sys2Proof.Machine
end

section
/-! PROOFS. Reset and hazards (70_reset_and_hazards.md sections 1 and 3): a block at its reset values stays there until it accepts a
command, and a command accepted right after another one sees what that one wrote. -/

namespace Sys2Proof.Machine

/-! ### Reset -/

/-- While `rst` is 1 no command is accepted (R240). -/
theorem accepted_eq_false_of_rst {s : State} (hr : s.ports.rst = true) : s.accepted = false := by simp [State.accepted, hr]

/-- The values a reset edge leaves are the reset values. -/
theorem resetEdge_atReset (s : State) : s.resetEdge.AtReset := rfl

/-- At the reset values a reset edge, or any other that accepts nothing, changes nothing (R240, R242). -/
theorem State.AtReset.edge_eq {s : State} (hs : s.AtReset) (ha : s.accepted = false) : edge s = .next s := by
  cases hr : s.ports.rst with
  | true => rw [edge_reset s hr, ← hs]
  | false =>
    have hseq : s.seq = .idle := hs ▸ rfl
    have hact : s.act = false := hs ▸ rfl
    have hdre : s.dre = true := hs ▸ rfl
    rw [edge_unaccepted s hr ha, mergeWrites_idle s s hseq hact hdre]

/-- Settles O40: a reset edge answers `resetEdge`, which keeps `rst` and so is answered again. -/
theorem resetFromEveryState : Obligations.ResetFromEveryState := by
  unfold Obligations.ResetFromEveryState
  intro s hr
  have hheld : edge s.resetEdge = .next s.resetEdge := (resetEdge_atReset s).edge_eq (accepted_eq_false_of_rst hr)
  exact ⟨accepted_eq_false_of_rst hr, s.resetEdge, edge_reset s hr, rfl, rfl, rfl, rfl, rfl, rfl, rfl, rfl, rfl, rfl, rfl, rfl, rfl, rfl,
    rfl, hheld⟩

/-- The output ports at the reset values (R242): an all-zero word has an all-zero buffer, and no byte shifts. -/
theorem resetEdge_outputs (s : State) :
    s.resetEdge.outputs = {
      cmdReady := true, busy := false, fault := 0, initd := false, wvalid := false, word := 0x00000000#32,
      buf := 0x00000000#32, dre := true, txc := false, sck := false, sdo := Config.sdoIdle } := by
  have hbuf : (serialize 0#32).toWord = 0#32 := by decide
  obtain ⟨hsck, hsdo⟩ := serialLines_of_not_act s.resetEdge_act
  simp [State.outputs, State.cmdReady, State.busy, hbuf, hsck, hsdo]

/-- Settles O41: the outputs by the registers, which an edge without an acceptance keeps. -/
theorem outputsAfterReset : Obligations.OutputsAfterReset := by
  unfold Obligations.OutputsAfterReset
  intro s hs
  have hready : s.cmdReady = true := (cmdReady_iff s).mpr (hs ▸ ⟨rfl, rfl⟩)
  refine ⟨?_, hs.edge_eq, fun hr => ⟨hready, accepted_eq_false_of_rst hr⟩⟩
  rw [hs]
  exact resetEdge_outputs s

/-! ### A command right after another -/

/-- The edge of an accepted command is the command unit's write alone (R197). -/
theorem edge_of_accepted {s c : State} (h : s.FactsOfR42) (ha : s.accepted = true) (hc : commandUnit s = .next c) :
    edge s = .next c := by
  obtain ⟨hrst, -⟩ := (accepted_iff s).mp ha
  rw [edge_of_commandUnit s c hrst hc, mergeWrites_of_accepted c h ha]

/-- A command that leaves SEQ and FAULT alone leaves the block ready, so a command presented at the next edge is accepted (R190, R191). -/
theorem accepted_drivenBy {s c : State} {q : Ports} (ha : s.accepted = true) (hseq : c.seq = s.seq) (hfault : c.fault = s.fault)
    (hrst : q.rst = false) (hvalid : q.cmdValid = true) : (c.drivenBy q).accepted = true := by
  obtain ⟨-, -, hidle, hnofault⟩ := (accepted_iff s).mp ha
  exact (accepted_iff _).mpr ⟨hrst, hvalid, hseq.trans hidle, hfault.trans hnofault⟩

/-- XMIT.E accepted with a divisor and a word starts the word's frame (R156). -/
theorem frameStarts_of_xmitE {s : State} (h : s.FactsOfR42) (ha : s.accepted = true) (hcmd : s.ports.cmd = 0x30#8)
    (hi : s.initd = true) (hv : s.wvalid = true) : FrameStarts s (s.startFrame (serialize s.word)) :=
  ⟨ha, edge_of_accepted h ha ((commandUnit_of_decode ha (hcmd ▸ decode_xmitE)).trans (exec_xmitE_of_wvalid hi hv)), rfl⟩

/-- XMIT.P accepted with a divisor starts the frame on `in_tx` (R157). -/
theorem frameStarts_of_xmitP {s : State} (h : s.FactsOfR42) (ha : s.accepted = true) (hcmd : s.ports.cmd = 0x38#8)
    (hi : s.initd = true) : FrameStarts s (s.startFrame (Frame.ofWord s.ports.ops.inTx)) :=
  ⟨ha, edge_of_accepted h ha ((commandUnit_of_decode ha (hcmd ▸ decode_xmitP)).trans (exec_xmitP_of_initd hi)), rfl⟩

/-- Settles O56: the first command's edge is its own write, `writeWord` or `configure`, which leaves the block ready and within R42; the
XMIT then reads what was written. -/
theorem encodeThenTransmitNeedsNoGap : Obligations.EncodeThenTransmitNeedsNoGap := by
  unfold Obligations.EncodeThenTransmitNeedsNoGap
  constructor
  · intro s t i q hinv ha hi henc hinitd h hrst hvalid hcmd
    obtain ⟨pol, hc⟩ := commandUnit_encode ha henc
    have hR42 : t.FactsOfR42 := (edge_keeps_inv hinv h).1
    obtain rfl := next_inj.mp ((edge_of_accepted hinv.1 ha hc).symm.trans h)
    have hnext : ((s.writeWord (s.encodedOperands pol)).drivenBy q).accepted = true := accepted_drivenBy ha rfl rfl hrst hvalid
    exact ⟨_, _, (commandUnit_of_decode ha hi).symm.trans hc, frameStarts_of_xmitE hR42 hnext hcmd hinitd rfl, rfl⟩
  · intro s t q hinv ha hinit hinitd h hrst hvalid
    have hc := commandUnit_init ha (hinit ▸ decode_init) hinitd
    have hR42 : t.FactsOfR42 := (edge_keeps_inv hinv h).1
    obtain rfl := next_inj.mp ((edge_of_accepted hinv.1 ha hc).symm.trans h)
    have hnext : ((s.configure s.ports.ops.inDiv).drivenBy q).accepted = true := accepted_drivenBy ha rfl rfl hrst hvalid
    exact ⟨fun hcmd => ⟨_, frameStarts_of_xmitP hR42 hnext hcmd rfl, rfl, rfl, rfl⟩,
      fun hcmd hv => ⟨_, frameStarts_of_xmitE hR42 hnext hcmd rfl hv, rfl, rfl, rfl⟩⟩

end Sys2Proof.Machine
end

section
/-! PROOFS. The formats of the command words (30_encoding.md section 1), the frames that XMIT starts (41_transmitter.md section 4), and which
operand ports a command reads (R78). -/

namespace Sys2Proof.Machine

/-! ### Encoding and decoding -/

/-- Decoding undoes encoding (R71 to R75). -/
theorem decode_encode (i : Instr) : decode (encode i) = some i := by
  cases i with
  | nop => exact decode_nop
  | encMan mb => revert mb; decide
  | encOdd => exact decode_encOdd
  | encEven => exact decode_encEven
  | init => exact decode_init
  | xmitE => exact decode_xmitE
  | xmitP => exact decode_xmitP

/-- Over the 256 words, a word that decodes is its command's encoding (R75). -/
theorem encode_of_mem_decode (w : CmdWord) : ∀ i ∈ decode w, encode i = w := by revert w; decide

/-- Settles O3: the encoding of each command decodes to it, and the words that decode are these encodings. -/
theorem decodeAndEncodeAgree : Obligations.DecodeAndEncodeAgree := by
  unfold Obligations.DecodeAndEncodeAgree
  exact ⟨fun i _ => decode_encode i, encode_of_mem_decode⟩

/-! ### The frames of XMIT -/

/-- Settles O28: XMIT.E is `startFrame` of the word's buffer. -/
theorem xmitEStartsTheFrame : Obligations.XmitEStartsTheFrame := by
  unfold Obligations.XmitEStartsTheFrame
  exact fun _ => exec_xmitE_of_wvalid

/-- Settles O29: XMIT.P is `startFrame` of the port's bytes. -/
theorem xmitPStartsTheFrame : Obligations.XmitPStartsTheFrame := by
  unfold Obligations.XmitPStartsTheFrame
  exact fun _ => exec_xmitP_of_initd

/-! ### The operand ports a command reads -/

/-- Where a command writes the same registers `c` under either host's ports, its two next states differ in the ports alone. -/
theorem exec_drivenBy_of_same_writes {i : Instr} {s t : State} {p q : Ports} (h : exec i (s.drivenBy p) = .next t) (c : State)
    (hp : exec i (s.drivenBy p) = .next (c.drivenBy p)) (hq : exec i (s.drivenBy q) = .next (c.drivenBy q)) :
    exec i (s.drivenBy q) = .next (t.drivenBy q) := by
  obtain rfl := next_inj.mp (hp.symm.trans h)
  exact hq

/-- An encode command reads the four operands of the word (R78, R111). -/
theorem encodedOperands_drivenBy {s : State} {p q : Ports} (pol : Policy)
    (h : p.ops.inLabel = q.ops.inLabel ∧ p.ops.inSdi = q.ops.inSdi ∧ p.ops.inData = q.ops.inData ∧ p.ops.inSsm = q.ops.inSsm) :
    (s.drivenBy q).encodedOperands pol = (s.drivenBy p).encodedOperands pol := by
  obtain ⟨hlabel, hsdi, hdata, hssm⟩ := h
  simp only [State.encodedOperands, State.drivenBy_ports, State.drivenBy_params, hlabel, hsdi, hdata, hssm]

/-- Settles O33: each command's equation in the cases of INITD and WVALID; hosts that agree on the operands it reads give it the same
registers to write. -/
theorem commandsReadOnlyTheirOperands : Obligations.CommandsReadOnlyTheirOperands := by
  unfold Obligations.CommandsReadOnlyTheirOperands
  intro s p q
  refine ⟨fun hops i t henc h => ?_, fun hdiv t h => ?_, fun htx t h => ?_, fun i t hi h => ?_⟩
  · obtain ⟨pol, hexec⟩ := exec_encode henc
    refine exec_drivenBy_of_same_writes h (s.writeWord ((s.drivenBy p).encodedOperands pol)) (hexec _) ?_
    rw [← encodedOperands_drivenBy pol hops]
    exact hexec _
  · cases hn : s.initd with
    | true => exact exec_drivenBy_of_same_writes h (s.raise .reinit) (exec_init_of_initd hn) (exec_init_of_initd hn)
    | false =>
      refine exec_drivenBy_of_same_writes h (s.configure p.ops.inDiv) (exec_init_of_not_initd hn) ?_
      rw [hdiv]
      exact exec_init_of_not_initd hn
  · cases hn : s.initd with
    | false => exact exec_drivenBy_of_same_writes h (s.raise .noinit) (exec_xmitP_of_not_initd hn) (exec_xmitP_of_not_initd hn)
    | true =>
      refine exec_drivenBy_of_same_writes h (s.startFrame (Frame.ofWord p.ops.inTx)) (exec_xmitP_of_initd hn) ?_
      rw [htx]
      exact exec_xmitP_of_initd hn
  · rcases hi with rfl | rfl
    · exact exec_drivenBy_of_same_writes h s rfl rfl
    · cases hn : s.initd with
      | false => exact exec_drivenBy_of_same_writes h (s.raise .noinit) (exec_xmitE_of_not_initd hn) (exec_xmitE_of_not_initd hn)
      | true =>
        cases hv : s.wvalid with
        | false =>
          exact exec_drivenBy_of_same_writes h (s.raise .noword) (exec_xmitE_of_not_wvalid hn hv) (exec_xmitE_of_not_wvalid hn hv)
        | true =>
          exact exec_drivenBy_of_same_writes h (s.startFrame (serialize s.word)) (exec_xmitE_of_wvalid hn hv)
            (exec_xmitE_of_wvalid hn hv)

end Sys2Proof.Machine
end

section
/-! PROOFS. What every edge and every step keep (10_state.md section 4, 42_command.md section 2): the invariant, IDX within a frame's four
bytes, the parameters, and the command registers of a busy block. -/

namespace Sys2Proof.Machine

/-! ### The invariant -/

/-- Settles O47: the edge keeps the invariant by the sequencer's state before it, and the host's side writes no register. -/
theorem invariantKeptByEveryStep : Obligations.InvariantKeptByEveryStep := by
  unfold Obligations.InvariantKeptByEveryStep
  exact fun _ _ => step_keeps_inv

/-- Settles O46: a state at the reset values is its own reset edge's. -/
theorem invariantAtReset : Obligations.InvariantAtReset := by
  unfold Obligations.InvariantAtReset
  exact ⟨fun s hs => hs ▸ resetEdge_inv s, resetEdge_inv State.reset⟩

/-- Settles O36: the invariant leaves the sequencer and the shifter idle where a command is accepted. -/
theorem acceptedCommandIsTheWholeEdge : Obligations.AcceptedCommandIsTheWholeEdge := by
  unfold Obligations.AcceptedCommandIsTheWholeEdge
  exact fun _ _ hinv => edge_of_accepted hinv.1

/-! ### The reserved values -/

/-- IDX goes to 0 at a frame's start and up by one from at most 3 while loading; no other edge but reset writes it (R32). -/
theorem edge_idx_le_four {s t : State} (hinv : s.Inv) (hidx : s.idx.toNat ≤ 4) (h : edge s = .next t) : t.idx.toNat ≤ 4 := by
  cases hr : s.ports.rst with
  | true => simp [edge_next_of_rst h hr]
  | false =>
    obtain ⟨hload, hwait, hdone, hsending, hidle⟩ := sequencerAtEveryEdge s t hr h
    cases hq : s.seq with
    | idle =>
      obtain ⟨-, ⟨-, hkept⟩ | hstart⟩ := hidle hq
      · rwa [hkept]
      · simp [(hstart.frameAccepted hinv).idx]
    | load =>
      obtain ⟨-, -, hle, -⟩ := (inv_load_iff hq).mp hinv
      cases hd : s.dre with
      | true =>
        obtain ⟨-, -, hnext, -⟩ := hload hq hd hle
        rw [hnext, BitVec.toNat_add, BitVec.toNat_ofNat]
        omega
      | false =>
        obtain ⟨-, hkept, -⟩ := hwait hq hd
        rwa [hkept]
    | waitc =>
      cases hc : s.txc with
      | true =>
        obtain ⟨-, -, hkept⟩ := hdone hq hc
        rwa [hkept]
      | false =>
        obtain ⟨-, -, hkept⟩ := hsending hq hc
        rwa [hkept]

/-- The invariant alone leaves IDX open in IDLE, so its bound is carried along the run beside it (R32). -/
theorem reachable_idx_le_four {s : State} (h : Reachable s) : s.idx.toNat ≤ 4 := by
  induction h with
  | reset s hs => rw [hs]; simp
  | step s t hs hst ih =>
    obtain ⟨u, hu, rfl⟩ := (step_next_iff s t).mp hst
    rw [driver_idx]
    exact edge_idx_le_four (reachable_inv hs) ih hu
  | host s p ph lines _ ih => exact ih

/-- Settles O49: the codes are the invariant's last fact, and the index is bounded along the run. -/
theorem reservedValuesAreNeverReached : Obligations.ReservedValuesAreNeverReached := by
  unfold Obligations.ReservedValuesAreNeverReached
  intro s hs
  obtain ⟨-, -, -, -, hfault⟩ := reachable_inv hs
  exact ⟨hfault, reachable_idx_le_four hs⟩

/-! ### The parameters -/

/-- No command writes the parameters (R2). -/
theorem CommandUnitWrites.params_kept {s c : State} (h : CommandUnitWrites s c) : c.params = s.params := by
  cases h <;> rfl

/-- The sequencer and the shifter write no parameter either (R2). -/
theorem mergeWrites_params (s c : State) : (mergeWrites s c).params = c.params := by
  obtain ⟨-, -, -, -, -, -, -, -, -, hshifter, -⟩ := shifter_keeps s (sequencer s c)
  obtain ⟨-, -, -, -, -, -, -, -, -, -, -, hsequencer, -⟩ := sequencer_keeps s c
  rw [mergeWrites, settleTxc_keeps]
  exact hshifter.trans hsequencer

theorem edge_params {s t : State} (h : edge s = .next t) : t.params = s.params := by
  cases hr : s.ports.rst with
  | true => rw [edge_next_of_rst h hr, State.resetEdge_params]
  | false =>
    obtain ⟨c, hc, rfl⟩ := edge_next_of_not_rst h hr
    rw [mergeWrites_params, (commandUnit_cases hc).params_kept]

/-- Settles O50: no part of an edge writes the parameters, reset and the host's side included. -/
theorem parametersNeverChange : Obligations.ParametersNeverChange := by
  unfold Obligations.ParametersNeverChange
  intro s t h
  obtain ⟨u, hu, rfl⟩ := (step_next_iff s t).mp h
  rw [driver_params, edge_params hu]

/-! ### A busy block -/

/-- Settles O55: a busy block accepts nothing, and the sequencer and the shifter write no command register (R198). -/
theorem busyFreezesTheCommandRegisters : Obligations.BusyFreezesTheCommandRegisters := by
  unfold Obligations.BusyFreezesTheCommandRegisters
  intro s t hb hr h
  have ha := accepted_eq_false_of_busy hb
  obtain rfl := next_inj.mp ((edge_unaccepted s hr ha).symm.trans h)
  exact ⟨ha, mergeWrites_sameCommandRegisters s s⟩

end Sys2Proof.Machine
end

section
/-! PROOFS. The step and the host the model holds (42_command.md section 2, 30_encoding.md rule R81; logs 5, 6, 13): a step is an edge of the
block and then the host's move, by what the host was doing. -/

namespace Sys2Proof.Machine

/-! ### The step -/

/-- No state stops the block (60_exceptions.md sections 1 and 2). -/
theorem edge_answers_next (s : State) : ∃ t, edge s = .next t := by
  cases hr : s.ports.rst with
  | true => exact ⟨_, edge_reset s hr⟩
  | false =>
    obtain ⟨c, hc, -⟩ := commandUnit_writes s
    exact ⟨_, edge_of_commandUnit s c hr hc⟩

theorem step_of_edge {s t : State} (h : edge s = .next t) : step s = .next (driver s t) :=
  (step_next_iff s _).mpr ⟨t, h, rfl⟩

/-- Settles O39: the edge answers a next state, and so does the host's move after it. -/
theorem stepAlwaysAnswersNext : Obligations.StepAlwaysAnswersNext := by
  unfold Obligations.StepAlwaysAnswersNext
  intro s
  obtain ⟨t, ht⟩ := edge_answers_next s
  exact ⟨_, step_of_edge ht⟩

/-- Settles O35: an accepted command is dispatched to its `exec`, which always answers a next state. -/
theorem stepRunsTheDecodedInstruction : Obligations.StepRunsTheDecodedInstruction := by
  unfold Obligations.StepRunsTheDecodedInstruction
  intro s i ha hi _
  obtain ⟨hrst, -⟩ := (accepted_iff s).mp ha
  obtain ⟨c, hc, -⟩ := exec_writes i s
  have hedge : edge s = .next (mergeWrites s c) := edge_of_commandUnit s c hrst ((commandUnit_of_decode ha hi).trans hc)
  rw [step_of_edge hedge, hc]

/-! ### The host's move after an edge -/

/-- A command line that starts no frame finishes at its acceptance (R81). -/
theorem driver_hold_finished {s t : State} (h : s.phase = .hold) (ha : s.accepted = true) (hb : t.busy = false) :
    driver s t = t.startNextLine := by simp [driver, h, ha, hb]

/-- An XMIT that starts a frame leaves the host waiting, with every port 0 (R81; log 6). -/
theorem driver_hold_started {s t : State} (h : s.phase = .hold) (ha : s.accepted = true) (hb : t.busy = true) :
    driver s t = { t with ports := Ports.idle, phase := .frame } := by simp [driver, h, ha, hb]

/-- The XMIT's line finishes where `busy` falls (R81). -/
theorem driver_frame {s t : State} (h : s.phase = .frame) : driver s t = if t.busy = true then t else t.startNextLine := by
  simp only [driver, h]

/-- A line of more than one edge goes on (R81). -/
theorem driver_edges_add_two {s t : State} {n : Nat} (h : s.phase = .edges (n + 2)) :
    driver s t = { t with phase := .edges (n + 1) } := by simp [driver, h]

/-- A line of n edges finishes at its last (R81). -/
theorem driver_edges_one {s t : State} (h : s.phase = .edges 1) : driver s t = t.startNextLine := by simp [driver, h]

/-- A host with no line left keeps its ports (R81; log 6). -/
theorem driver_done {s t : State} (h : s.phase = .done) : driver s t = t := by simp [driver, h]

/-- Settles O57: the edge leaves the host's side alone, the host moves by what it was doing, and its next line is `startLine`'s. -/
theorem hostLinesFinish : Obligations.HostLinesFinish := by
  unfold Obligations.HostLinesFinish
  refine ⟨fun s t h => ?_, ?_, fun _ _ => rfl⟩
  · obtain ⟨hports, hphase, hprogram⟩ := edge_sameHost h
    rw [step_of_edge h]
    simp only [next_inj]
    exact ⟨hports, hphase, hprogram, driver_hold_finished, driver_hold_started, driver_hold_unaccepted s t,
      fun hf hb => by simp [driver_frame hf, hb], fun hf hb => by simp [driver_frame hf, hb], fun _ => driver_edges_add_two,
      driver_edges_one, driver_done⟩
  · rintro s _ rest rfl
    refine ⟨fun w ops hl => startNextLine_eq s _ hl, fun n hl => ?_, fun hl => ?_, fun p hl => startNextLine_eq s _ hl,
      fun hl => startNextLine_eq s (.wait 0 :: rest) hl, fun hl => ?_⟩
    · rw [startNextLine_eq s _ hl]
      exact ⟨rfl, rfl, rfl⟩
    · rw [startNextLine_eq s _ hl]
      exact ⟨rfl, rfl⟩
    · rw [startNextLine_eq s _ hl]
      exact ⟨by simp [startLine, hl], rfl, rfl⟩

end Sys2Proof.Machine
end
